-- ==== Sys2Proof/Word.lean ====
section
/-!
DEFINITION. The widths of the block's values (00_scope.md rules R2, R3): every register of the window, every
HardwareWord and the sequence counter are unsigned 32-bit values, a sample component has 16 bits, a byte 8.
-/
namespace Sys2Proof

/-- A register of the window, a HardwareWord, the sequence counter: `REG_W` = `SEQ_W` = 32 bits (R2). -/
abbrev Word := BitVec 32

/-- One sample component, I or Q: 16 bits, carried as a raw pattern (R72). -/
abbrev Half := BitVec 16

/-- One byte of a frame (R3). -/
abbrev Byte := BitVec 8

end Sys2Proof
end

