-- ==== Sys2Proof/Config.lean ====
section
/-!
DEFINITION. What is fixed for a run (00_scope.md rule R2), the values the other agents draw from (R4 "draw"), the
cause codes (60_exceptions.md rule R200), and the free values: opaque constants no proof can see into.
-/
namespace Sys2Proof

/-- The destination-address argument as argument validation sees it (44_frame_output.md rule R168): an IPv4 or an
IPv6 literal, or a text that is no such literal. How a text is recognised is command-line parsing, which
00_scope.md section 3 leaves out. -/
inductive Addr where
  | ipv4 (a : BitVec 32)
  | ipv6 (a : BitVec 128)
  | text (bytes : List Byte)
  deriving DecidableEq, Repr

/-- `DEST`: "an immutable (address, port) pair" (10_state.md rule R18). -/
structure Dest where
  addr : Addr
  port : Nat
  deriving DecidableEq, Repr

/-- The parameters of 00_scope.md rule R2, one field each; `REG_W` and `SEQ_W` are the width of `Word`, and
`FRAME_LEN` is computed from `n`. `DEST` is held as the two command-line arguments it comes from (R168), either of
which may be missing. The host supplies all of them before INIT (70_reset_and_hazards.md rule R244). -/
structure Config where
  /-- `BASE`, the physical byte address of word offset 0. -/
  base : Nat
  /-- `SPAN_WORDS`, the number of 32-bit registers in the window. -/
  span : Nat
  /-- `OCC_OFF`, the word offset of the occupancy register. -/
  occOff : Word
  /-- `DATA_OFF`, the word offset of the data register. -/
  dataOff : Word
  /-- `N`, hardware words per frame. -/
  n : Nat
  /-- `SEQ_INIT`, the counter of the first frame. -/
  seqInit : Word
  /-- `DEPTH`, the capacity of the receive FIFO in words. -/
  depth : Nat
  /-- The destination-address argument, if there is one. -/
  addrArg : Option Addr
  /-- The destination-port argument, if there is one. -/
  portArg : Option Nat
  /-- `MAX_MSG`, the largest message the sink accepts as one datagram. -/
  maxMsg : Nat
  /-- `EXIT_FAIL`, the exit status of a fatal startup error other than a usage error. -/
  exitFail : Nat
  deriving DecidableEq, Repr

/-- The reference system: the values R2 gives (7, 8, 256, 0), the destination of the source's scenario
(127.0.0.1:5005, 95_test_vectors.md S6), and for the parameters R2 marks OPEN the values of assumption 2
(DESIGN CHOICE, unsafe). Every statement about a state holds for every configuration; only the state after reset
uses this one. -/
def Config.reference : Config where
  base := 0x40000000
  span := 16
  occOff := 7
  dataOff := 8
  n := 256
  seqInit := 0
  depth := 4
  addrArg := some (.ipv4 0x7F000001)
  portArg := some 5005
  maxMsg := 65507
  exitFail := 1

/-- The cause codes of 60_exceptions.md rule R200. -/
inductive Cause where
  | cfgInvalid
  | permissionDenied
  | deviceUnavailable
  | mappingRejected
  | boundsAtOpen
  | boundsAtRead (off : Word)
  | socketUnavailable
  | addressMalformed
  | hostUnresolvable
  | sendShort
  | sendErr
  deriving DecidableEq, Repr

/-- The platform's answer to RI_OPEN, a draw (41_register_interface.md rule R100). -/
inductive RiAnswer where
  | ok
  | permissionDenied
  | deviceUnavailable
  | mappingRejected
  deriving DecidableEq, Repr

/-- The platform's answer to TX_OPEN, a draw (44_frame_output.md rule R160). -/
inductive TxAnswer where
  | ok
  | socketUnavailable
  | addressMalformed
  | hostUnresolvable
  deriving DecidableEq, Repr

/-- The sink's answer to a SEND, a draw (44_frame_output.md rule R162): `short k` says that the transport accepted
`k` bytes of the frame. -/
inductive SinkAnswer where
  | ok
  | short (k : Nat)
  | err
  deriving DecidableEq, Repr, Inhabited

/-- FREE VALUE. What a read of DATA returns from an empty FIFO: "a draw among all 32-bit values"
(10_state.md rule R28). The argument is the state's draw counter (assumption 6). -/
opaque Config.freeWord : Nat → Word

/-- FREE VALUE. The queue after an overflow, before it is cut to `DEPTH` words: "a draw among all queues of length 0
to DEPTH" (10_state.md rule R27; assumption 5). -/
opaque Config.freeQueue : Nat → List Word

/-- FREE VALUE. What a read of an element of `WBUF` that nothing has written yields: it "holds no value"
(10_state.md rule R31; assumption 4). The arguments are the draw counter and the index. -/
opaque Config.freeEntry : Nat → Nat → Word

/-- FREE VALUE. The same for a byte of `FB` (10_state.md rule R31; assumption 4). -/
opaque Config.freeByte : Nat → Nat → Byte

/-- FREE VALUE. What an injected source answers once its script has run out (42_fifo_reader.md rule R128;
assumption 13). -/
opaque Config.freeScript : Nat → Word

/-- FREE VALUE. The sink's answer to a SEND for which the state lists none (44_frame_output.md rule R162;
assumption 8). -/
opaque Config.freeAnswer : Nat → SinkAnswer

/-- FREE VALUE. Which failure answers a frame larger than `MAX_MSG`: `some k` a short acceptance, `none` an error
(70_reset_and_hazards.md rule R255; assumption 8). -/
opaque Config.freeFailure : Nat → Option Nat

end Sys2Proof
end

