-- ==== Sys2Proof/Syntax.lean ====
section
/-!
DEFINITION. The operations of the block: one constructor for each of the 21 rows of spec/opcode_table.json
(30_encoding.md rule R80), with the operands the operation's own rule gives it.
-/
namespace Sys2Proof

/-- The operations, in the order of the table of 30_encoding.md rule R80. -/
inductive Instr where
  /-- RI_OPEN: opens the register window at a byte address with a count of registers (R100). -/
  | riOpen (base span : Nat)
  /-- RD_OCC: reads the occupancy register (R104). -/
  | rdOcc
  /-- RD_DATA: reads the data register, which pops the FIFO (R106). -/
  | rdData
  /-- RD_UNDEF: a read at an in-window offset the source defines no register for (R108). -/
  | rdUndef (off : Word)
  /-- RD_OOB: a read at an offset outside the window (R109). -/
  | rdOob (off : Word)
  /-- WR: a write of a value to a register of the window (R110). -/
  | wr (off value : Word)
  /-- POLL: the step of phase `POLL` (R121). -/
  | poll
  /-- POP: the step of phase `POP` (R124). -/
  | pop
  /-- NEXT_WORD: polls until a word is there, then pops it (R127). -/
  | nextWord
  /-- PACK_CTR: writes a counter into the first four bytes of the frame (R142). -/
  | packCtr (c : Word)
  /-- PACK_IQ: writes the sample pair of a word into the frame at position `i` (R144). -/
  | packIq (i : Nat) (w : Word)
  /-- BUILD_FRAME: the step of phase `PACK` (R146). -/
  | buildFrame
  /-- TX_OPEN: opens the sink for a destination (R160). -/
  | txOpen (d : Dest)
  /-- SEND: the step of phase `SEND` (R162). -/
  | send
  /-- INIT: the step of phase `INIT` (R180). -/
  | init
  /-- COLLECT: collects the words of one frame (R184). -/
  | collect
  /-- ADV: the step of phase `ADV` (R188). -/
  | adv
  /-- CYCLE: one iteration of STREAMING (R186). -/
  | cycle
  /-- FAIL: the transition into `FAILED`, with a cause and an exit status (R190). -/
  | fail (cause : Cause) (status : Nat)
  /-- KILL: the host's external termination (R192). -/
  | kill
  /-- PUSH: the producer's step (R194). -/
  | push (w : Word)
  deriving DecidableEq, Repr

end Sys2Proof
end

