-- ==== Sys2Proof/WellFormed.lean ====
section
/-!
DEFINITION. Which operands an operation's rule allows, under a configuration.
-/
namespace Sys2Proof

/-- The operand checks. `RD_OCC` and `RD_DATA` need their offset to be one the selection table of
30_encoding.md rule R70 gives to them; `RD_UNDEF` and `RD_OOB` take the offsets R108 and R109 name; `PACK_IQ` takes
`0 <= i < N` (R144); `TX_OPEN` takes a port in 1 to 65535 (R2); `FAIL` takes a cause that is fatal at startup (R200)
and a non-zero status, which is 1 for `CFG_INVALID` (R190); `RI_OPEN` takes a base that is a multiple of 4 (R43). -/
def Instr.wf (c : Config) : Instr → Bool
  | .riOpen base _ => base % 4 == 0
  | .rdOcc => decide (c.occOff.toNat < c.span)
  | .rdData => decide (c.dataOff.toNat < c.span) && decide (c.dataOff ≠ c.occOff)
  | .rdUndef off => decide (off.toNat < c.span) && decide (off ≠ c.occOff) && decide (off ≠ c.dataOff)
  | .rdOob off => decide (c.span ≤ off.toNat)
  | .wr _ _ => true
  | .poll => true
  | .pop => true
  | .nextWord => true
  | .packCtr _ => true
  | .packIq i _ => decide (i < c.n)
  | .buildFrame => true
  | .txOpen d => decide (1 ≤ d.port) && decide (d.port ≤ 65535)
  | .send => true
  | .init => true
  | .collect => true
  | .adv => true
  | .cycle => true
  | .fail cause status =>
    match cause with
    | .cfgInvalid => status == 1
    | .permissionDenied | .deviceUnavailable | .mappingRejected | .boundsAtOpen => status != 0
    | .socketUnavailable | .addressMalformed | .hostUnresolvable => status != 0
    | .boundsAtRead _ | .sendShort | .sendErr => false
  | .kill => true
  | .push _ => true

end Sys2Proof
end

