-- ==== Sys2Proof/Decode.lean ====
section
/-!
DEFINITION. From bits to operations (30_encoding.md). Two formats have bits: PHASE, the 3-bit label of the phase
register (R79), one byte here; and REG, the 33-bit descriptor of a register access (R70), five bytes here, least
significant first, followed for a write by the four bytes of its VALUE, which R110 gives it and the descriptor does
not hold. The formats SUB, PSEUDO and ENV have no selecting pattern (R80). Then the encoder, and the host's
`decodeTableWord`.
-/
namespace Sys2Proof

/-- The five formats of spec/opcode_table.json (30_encoding.md rule R80). -/
inductive Format where
  | phase
  | reg
  | sub
  | pseudo
  | env
  deriving DecidableEq, Repr

/-- Why bytes select no operation. -/
inductive DecodeError where
  /-- Fewer bytes than the format has. -/
  | short
  /-- A bit above the label's three bits, or above the descriptor's 33, is set. -/
  | padding
  /-- Labels 6 and 7, `FAILED` and `HALTED`: "no operation runs in them" (R80). -/
  | noOperation
  /-- The formats SUB, PSEUDO and ENV: they "have no selecting pattern" (R80). -/
  | noPattern
  deriving DecidableEq, Repr

/-- The format of each operation, as its row of spec/opcode_table.json has it. -/
def formatOf : Instr → Format
  | .riOpen _ _ | .packCtr _ | .packIq _ _ | .txOpen _ | .fail _ _ => .sub
  | .rdOcc | .rdData | .rdUndef _ | .rdOob _ | .wr _ _ => .reg
  | .poll | .pop | .buildFrame | .send | .init | .adv => .phase
  | .nextWord | .collect | .cycle => .pseudo
  | .kill | .push _ => .env

/-- Four bytes as a word, the first byte least significant (the model's layout of a descriptor, assumption 11). -/
def wordOfBytes (b0 b1 b2 b3 : Byte) : Word := b3 ++ b2 ++ b1 ++ b0

/-- The bytes of a word, least significant first. -/
def bytesOfWord (w : Word) : List Byte :=
  [w.extractLsb' 0 8, w.extractLsb' 8 8, w.extractLsb' 16 8, w.extractLsb' 24 8]

/-- The selection table of 30_encoding.md rule R70 for a read, first matching row. -/
def selectRead (c : Config) (off : Word) : Instr :=
  if c.span ≤ off.toNat then .rdOob off
  else if off = c.occOff then .rdOcc
  else if off = c.dataOff then .rdData
  else .rdUndef off

/-- The VALUE of a write, after its descriptor. -/
def decodeWrite (off : Word) : List Byte → Except DecodeError (Instr × List Byte)
  | v0 :: v1 :: v2 :: v3 :: rest => .ok (.wr off (wordOfBytes v0 v1 v2 v3), rest)
  | _ => .error .short

/-- Format REG: `OFF` in bits 31 to 0 and `K` in bit 32 (R70); a write is tried first, as its `K` alone decides it. -/
def decodeReg (c : Config) : List Byte → Except DecodeError (Instr × List Byte)
  | b0 :: b1 :: b2 :: b3 :: k :: rest =>
    if k = 1 then decodeWrite (wordOfBytes b0 b1 b2 b3) rest
    else if k = 0 then .ok (selectRead c (wordOfBytes b0 b1 b2 b3), rest)
    else .error .padding
  | _ => .error .short

/-- The operation of a phase label (R79). -/
def phaseOp (label : Nat) : Except DecodeError Instr :=
  match label with
  | 0 => .ok .init
  | 1 => .ok .poll
  | 2 => .ok .pop
  | 3 => .ok .buildFrame
  | 4 => .ok .send
  | 5 => .ok .adv
  | 6 => .error .noOperation
  | 7 => .error .noOperation
  | _ => .error .padding

/-- Format PHASE: one byte that holds the label. -/
def decodePhase : List Byte → Except DecodeError (Instr × List Byte)
  | [] => .error .short
  | b :: rest =>
    match phaseOp b.toNat with
    | .ok i => .ok (i, rest)
    | .error e => .error e

/-- The decoder, total: the operation bytes of a format select, and the bytes after it. -/
def decode (c : Config) (f : Format) (bytes : List Byte) : Except DecodeError (Instr × List Byte) :=
  match f with
  | .phase => decodePhase bytes
  | .reg => decodeReg c bytes
  | .sub | .pseudo | .env => .error .noPattern

/-- The 33-bit descriptor: `K` in bit 32, `OFF` in bits 31 to 0 (30_encoding.md rule R70). -/
def descriptor (k : Bool) (off : Word) : BitVec 33 := BitVec.ofBool k ++ off

/-- A descriptor's five bytes, least significant first; the top seven bits are zero. -/
def descriptorBytes (d : BitVec 33) : List Byte :=
  [d.extractLsb' 0 8, d.extractLsb' 8 8, d.extractLsb' 16 8, d.extractLsb' 24 8, d.extractLsb' 32 8]

/-- The encoder: the format and the bytes that select an operation; none for the formats with no pattern. -/
def encode (c : Config) : Instr → Option (Format × List Byte)
  | .rdOcc => some (.reg, descriptorBytes (descriptor false c.occOff))
  | .rdData => some (.reg, descriptorBytes (descriptor false c.dataOff))
  | .rdUndef off => some (.reg, descriptorBytes (descriptor false off))
  | .rdOob off => some (.reg, descriptorBytes (descriptor false off))
  | .wr off value => some (.reg, descriptorBytes (descriptor true off) ++ bytesOfWord value)
  | .init => some (.phase, [0])
  | .poll => some (.phase, [1])
  | .pop => some (.phase, [2])
  | .buildFrame => some (.phase, [3])
  | .send => some (.phase, [4])
  | .adv => some (.phase, [5])
  | .riOpen _ _ | .nextWord | .packCtr _ | .packIq _ _ | .txOpen _ | .collect | .cycle => none
  | .fail _ _ | .kill | .push _ => none

/-- The low `k` bytes of a number, least significant first. -/
def bytesOfNat : Nat → Nat → List Byte
  | 0, _ => []
  | k + 1, w => BitVec.ofNat 8 w :: bytesOfNat k (w / 256)

/-- The format a row of `nbits` bits is in: the only rows wider than a label are those of the 33-bit descriptor. -/
def tableFormat (nbits : Nat) : Format := if nbits ≤ 32 then .phase else .reg

/-- The bytes of a table word: a label must have bits and fit its byte; a register access is laid out with the zero
bytes its VALUE would take, whether or not it is a write. -/
def tableBytes (nbits w : Nat) : List Byte :=
  match tableFormat nbits with
  | .phase => if nbits ≠ 0 ∧ w < 256 then [BitVec.ofNat 8 w] else []
  | _ => bytesOfNat 9 w

/-- The host's question: the operation the decoder reads from a table word, in the reference configuration. -/
def decodeTableWord (nbits w : Nat) : Option Instr :=
  match decode Config.reference (tableFormat nbits) (tableBytes nbits w) with
  | .ok (i, _) => some i
  | .error _ => none

end Sys2Proof
end

