-- ==== Sys2Proof/Machine/State.lean ====
section
/-!
DEFINITION. The state of the block and of the agents around it (10_state.md), as plain data, the ways a step can
stop, and the state after reset (10_state.md rule R30).
-/
namespace Sys2Proof.Machine

/-- The eight values of the phase register `PH` (10_state.md rule R11). -/
inductive Phase where
  | init
  | poll
  | pop
  | pack
  | send
  | adv
  | failed
  | halted
  deriving DecidableEq, Repr

/-- What `WIN` holds once RI_OPEN has accepted a window (10_state.md rule R17). -/
structure Window where
  base : Nat
  span : Nat
  deriving DecidableEq, Repr

/-- What serves the two register reads: the receive FIFO, or the injected source of 42_fifo_reader.md rule R128,
a script of answers for each of the two registers. -/
inductive Source where
  | fifo
  | script (occ data : List Word)
  deriving DecidableEq, Repr

/-- Who moves next. `seq` is a turn of the sequencer; `push` and `kill` are the steps of the producer and the host
(00_scope.md rule R7). `access` is a call of the read contract by a caller other than the sequencer, given by its
bytes: it can only be answered with a BoundsError (41_register_interface.md rule R109, 93_implementation_defined.md
U7), since a second consumer has "no move in the model" (U23; assumption 10). -/
inductive Turn where
  | seq
  | push (w : Word)
  | kill
  | access (bytes : List Byte)
  deriving DecidableEq, Repr

/-- What the last contract operation gave its caller: the value a read "return"s, the error an operation "raise"s
(R100, R104, R106, R109, R160), or success of an open (assumption 12). `waiting` says that NEXT_WORD has not returned:
no word has been read (42_fifo_reader.md rule R127; assumption 14). -/
inductive Answer where
  | nothing
  | opened
  | waiting
  | value (v : Word)
  | error (c : Cause)
  deriving DecidableEq, Repr

/-- The observable events of 00_scope.md rule R5. A `rd` event also holds the byte address of its bus access
(20_memory.md rule R42), a `send` event the destination (44_frame_output.md rule R165); an open's result is `none`
for OK and the cause otherwise. -/
inductive Event where
  | openRi (base span : Nat) (err : Option Cause)
  | openTx (dest : Dest) (err : Option Cause)
  | rd (off : Word) (addr : Nat) (v : Word)
  | send (dest : Dest) (frame : List Byte) (answer : SinkAnswer)
  | reportTransient
  | status
  | usage
  | failureReport (c : Cause)
  | exit (status : Nat)
  | push (w : Word)
  | kill
  deriving DecidableEq, Repr

/-- Everything the spec gives the machine, then what the model adds so that a step is a function. -/
structure State where
  /-- The parameters of 00_scope.md rule R2; no operation writes them. -/
  cfg : Config
  /-- `PH`, the phase register (R11). -/
  ph : Phase
  /-- `IDX`, the word index (R12). -/
  idx : Nat
  /-- `SEQ`, the sequence counter (R13). -/
  seq : Word
  /-- `OCC_LAST`, the occupancy latch (R14). -/
  occLast : Word
  /-- Whether `OCC_LAST` has been written in this run (R31). -/
  occHeld : Bool
  /-- `WBUF`, the word buffer (R15): the entries that hold a value, by rising index; an entry not listed holds none
  (R31). -/
  wbuf : List (Nat × Word)
  /-- `FB`, the frame buffer (R16): the bytes that hold a value, by rising offset; an offset not listed holds none
  (R31). -/
  fb : List Host.Cell
  /-- `WIN`, the register-window handle (R17). -/
  win : Option Window
  /-- `TXH`, the sink handle (R18). -/
  txh : Option Dest
  /-- `Q`, the receive FIFO, oldest word first (R24). -/
  q : List Word
  /-- The ghost bit `ovf` (R27). -/
  ovf : Bool
  /-- The ghost bit `undf` (R28). -/
  undf : Bool
  /-- The model's ghost bit: a register that holds no value has been read (R31; assumption 4). -/
  unwr : Bool
  /-- What serves the two register reads (R128). -/
  source : Source
  /-- The turns to come, first one first; when none is listed the sequencer moves (R196). -/
  agenda : List Turn
  /-- The answer the platform will give to RI_OPEN (R100). -/
  riAnswer : RiAnswer
  /-- The answer the platform will give to TX_OPEN (R160). -/
  txAnswer : TxAnswer
  /-- The answers the sink will give, one for each SEND (R162). -/
  sink : List SinkAnswer
  /-- How many free values have been drawn; the model's own counter (assumption 3). -/
  draws : Nat
  /-- What the last contract operation gave its caller; the model's own field (assumption 12). -/
  answer : Answer
  /-- The events so far, oldest first (R6). -/
  trace : List Event
  deriving DecidableEq, Repr

/-- The ways the machine stops with a fault. -/
inductive Fault where
  /-- The run is over: `PH` is `FAILED` or `HALTED`, both terminal, and it is the sequencer's turn (R181), or a
  register of the window is read (R9: no event follows). Raised by `step`, RD_OCC and RD_DATA. Safe: the spec gives no
  step there. -/
  | runEnded (ph : Phase)
  /-- A register read with `WIN == none`, which "cannot occur" (R103). Raised by the register reads, POLL and POP.
  Safe. -/
  | windowNotOpen
  /-- A SEND with `TXH == none`, which no run reaches (R33). Raised by SEND. Safe. -/
  | sinkNotOpen
  /-- An index outside `WBUF`: POP with `IDX >= N` (R124), PACK_IQ with `i >= N` (R144). Raised by these two. Safe. -/
  | indexOutOfRange (i : Nat)
  deriving DecidableEq, Repr

/-- The ways an operation is refused. -/
inductive Refusal where
  /-- The instruction has no meaning yet. Raised by `exec` alone. Safe. -/
  | notModelled (mnemonic : String)
  /-- RD_UNDEF: "A model gives the operation no meaning and marks the run refused" (R108). Safe. -/
  | undefinedRegister (off : Word)
  /-- WR: "a model does not admit WR and marks the run refused if one is issued" (R110). Safe. -/
  | registerWrite (off value : Word)
  /-- The operation is not enabled in the phase `PH` holds: "The transitions not listed in ... rule R181 do not
  exist" (R83). Raised by every operation with a phase precondition. Safe. -/
  | notEnabled (ph : Phase)
  /-- The operands are not ones the operation's rule allows: RD_OOB with an offset inside the window (R109), FAIL with
  a status or cause R190 and R200 do not give it. Safe. -/
  | badOperand
  /-- The bytes of a register access select no operation (R81). Raised by `step`. Safe. -/
  | undecodable (e : DecodeError)
  /-- A read of OCC or of DATA by a caller other than the sequencer: a second consumer, which R196 and R228 exclude and
  93_implementation_defined.md U23 gives no move. Raised by `step`. Safe. -/
  | secondConsumer
  deriving DecidableEq, Repr

/-- The start of a run (10_state.md rule R30) for any configuration and any initial queue (R29): the values the spec
gives, and for the agents' inputs nothing pending and every answer OK (assumptions 7, 8 and 9, DESIGN CHOICE). -/
def State.resetWith (c : Config) (q : List Word) : State where
  cfg := c
  ph := .init
  idx := 0
  seq := c.seqInit
  occLast := 0
  occHeld := false
  wbuf := []
  fb := []
  win := none
  txh := none
  q := q
  ovf := false
  undf := false
  unwr := false
  source := .fifo
  agenda := []
  riAnswer := .ok
  txAnswer := .ok
  sink := []
  draws := 0
  answer := .nothing
  trace := []

/-- The machine right after reset: the reference configuration with the FIFO empty (assumptions 2 and 7). -/
def State.reset : State := State.resetWith Config.reference []

end Sys2Proof.Machine
end

