-- ==== Sys2Proof/Machine/Operands.lean ====
section
/-!
DEFINITION. The operand forms: byte addresses, the fields of a HardwareWord, little-endian groups, frames and the way
back from one, and sparse register arrays.
-/
namespace Sys2Proof.Machine

/-- The byte address of the register at a word offset, `BASE + 4*o` (20_memory.md rule R42). -/
def Window.addr (w : Window) (off : Word) : Nat := w.base + 4 * off.toNat

/-- `FRAME_LEN = 4 + 4*N` (00_scope.md rule R2). -/
def frameLen (c : Config) : Nat := 4 + 4 * c.n

/-- `I(w) = w[15:0]`, lane 0 of a HardwareWord (30_encoding.md rule R73). -/
def iPart (w : Word) : Half := w.extractLsb' 0 16

/-- `Q(w) = w[31:16]`, lane 1 of a HardwareWord (30_encoding.md rule R73). -/
def qPart (w : Word) : Half := w.extractLsb' 16 16

/-- `LE16(v) = [v[7:0], v[15:8]]` (00_scope.md rule R4). -/
def le16 (v : Half) : List Byte := [v.extractLsb' 0 8, v.extractLsb' 8 8]

/-- `LE32(v) = [v[7:0], v[15:8], v[23:16], v[31:24]]` (00_scope.md rule R4). -/
def le32 (v : Word) : List Byte :=
  [v.extractLsb' 0 8, v.extractLsb' 8 8, v.extractLsb' 16 8, v.extractLsb' 24 8]

/-- The four bytes of a sample pair: I first, then Q, each little-endian (43_frame_assembler.md rule R144). -/
def iqBytes (w : Word) : List Byte := le16 (iPart w) ++ le16 (qPart w)

/-- `BUILD_FRAME(c, w[0..n-1])`, the pure function, for any number of words (43_frame_assembler.md rules R146 to
R149). -/
def frameOf (c : Word) (ws : List Word) : List Byte := le32 c ++ ws.flatMap iqBytes

/-- A 16-bit value from its two little-endian bytes, as a receiver reads it (30_encoding.md rule R77). -/
def half16 (b0 b1 : Byte) : Half := b1 ++ b0

/-- The words a receiver recovers from the bytes after the counter, four bytes a word:
`w_i = I_i + 2^16*Q_i` (30_encoding.md rule R77). Bytes that do not fill a word are no part of a frame. -/
def sampleWords : List Byte → List Word
  | b0 :: b1 :: b2 :: b3 :: rest => (half16 b2 b3 ++ half16 b0 b1 : BitVec 32) :: sampleWords rest
  | _ => []

/-- What a receiver recovers from a frame: the counter and the words (30_encoding.md rule R77). -/
def readFrame : List Byte → Option (Word × List Word)
  | b0 :: b1 :: b2 :: b3 :: rest => some (half16 b2 b3 ++ half16 b0 b1, sampleWords rest)
  | _ => none

/-- The element of a sparse array at an index, if that element holds a value (10_state.md rule R31). -/
def cellAt {α : Type} : List (Nat × α) → Nat → Option α
  | [], _ => none
  | (j, v) :: rest, i => if j = i then some v else cellAt rest i

/-- Writes one element, keeping the indices rising: equal contents are equal lists. -/
def putCell {α : Type} : List (Nat × α) → Nat → α → List (Nat × α)
  | [], i, v => [(i, v)]
  | (j, u) :: rest, i, v =>
    if i < j then (i, v) :: (j, u) :: rest
    else if i = j then (i, v) :: rest
    else (j, u) :: putCell rest i v

/-- Writes a run of elements from an index upward. -/
def putCells {α : Type} : List (Nat × α) → Nat → List α → List (Nat × α)
  | m, _, [] => m
  | m, i, v :: vs => putCells (putCell m i v) (i + 1) vs

/-- The canonical form of a sparse array: strictly rising indices. No entry equals what an unlisted index reads as,
since that is no value at all. -/
def cellsWf {α : Type} : List (Nat × α) → Bool
  | [] => true
  | (i, _) :: rest => rest.all (fun e => decide (i < e.1)) && cellsWf rest

/-- The destination the two arguments name, if they pass validation: an IPv4 or IPv6 literal and a port in 1 to 65535
(44_frame_output.md rule R168). -/
def validDest (addr : Option Addr) (port : Option Nat) : Option Dest :=
  match addr, port with
  | some (.ipv4 a), some p => if 1 ≤ p ∧ p ≤ 65535 then some (Dest.mk (.ipv4 a) p) else none
  | some (.ipv6 a), some p => if 1 ≤ p ∧ p ≤ 65535 then some (Dest.mk (.ipv6 a) p) else none
  | some (.text _), _ => none
  | none, _ => none
  | _, none => none

/-- The configured destination, or none where the configuration is invalid (45_acquisition_loop.md rule R180). -/
def destOf (c : Config) : Option Dest := validDest c.addrArg c.portArg

end Sys2Proof.Machine
end

