-- ==== Sys2Proof/Machine/Flags.lean ====
section
/-!
DEFINITION. The conditions the block tests. It "has no flag register and no condition code" (10_state.md rule R19):
each condition is computed where it is used and leaves no bit behind. Also the classes of the causes
(60_exceptions.md rule R200).
-/
namespace Sys2Proof.Machine

/-- `STREAMING`, the set of the five phases of the loop (10_state.md rule R11). -/
def Phase.streaming : Phase → Bool
  | .poll | .pop | .pack | .send | .adv => true
  | .init | .failed | .halted => false

/-- The terminal phases (45_acquisition_loop.md rule R181). -/
def Phase.terminal : Phase → Bool
  | .failed | .halted => true
  | .init | .poll | .pop | .pack | .send | .adv => false

/-- HardwareStarvation is the fact `OCC_LAST == 0`; the test is on all 32 bits (30_encoding.md rule R78). -/
def wordAvailable (occ : Word) : Bool := occ != 0

/-- The test of POP, `IDX == N - 1` (42_fifo_reader.md rule R124). -/
def lastWord (c : Config) (idx : Nat) : Bool := idx == c.n - 1

/-- The construction-time check `OCC_OFF < SPAN_WORDS and DATA_OFF < SPAN_WORDS`
(41_register_interface.md rules R100, R102). -/
def offsetsInside (c : Config) (span : Nat) : Bool :=
  decide (c.occOff.toNat < span) && decide (c.dataOff.toNat < span)

/-- The error classes of 60_exceptions.md rule R200. -/
inductive ErrorClass where
  | configuration
  | resource
  | bounds
  | transientSend
  deriving DecidableEq, Repr

/-- The class of each cause (60_exceptions.md rule R200). -/
def classOf : Cause → ErrorClass
  | .cfgInvalid => .configuration
  | .permissionDenied | .deviceUnavailable | .mappingRejected => .resource
  | .boundsAtOpen | .boundsAtRead _ => .bounds
  | .socketUnavailable | .addressMalformed | .hostUnresolvable => .resource
  | .sendShort | .sendErr => .transientSend

/-- The causes that are fatal at startup (60_exceptions.md rule R200, column "fatal"). -/
def fatalCause : Cause → Bool
  | .boundsAtRead _ => false
  | c => classOf c != .transientSend

/-- The statuses FAIL may end with: 1 for `CFG_INVALID`, otherwise any but 0 (45_acquisition_loop.md rule R190). -/
def failStatusOk (c : Cause) (status : Nat) : Bool :=
  match classOf c with
  | .configuration => status == 1
  | _ => status != 0

/-- The cause of a failed RI_OPEN, if the platform's answer is one (41_register_interface.md rule R101). -/
def riCause : RiAnswer → Option Cause
  | .ok => none
  | .permissionDenied => some .permissionDenied
  | .deviceUnavailable => some .deviceUnavailable
  | .mappingRejected => some .mappingRejected

/-- The cause of a failed TX_OPEN, if the platform's answer is one (44_frame_output.md rule R161). -/
def txCause : TxAnswer → Option Cause
  | .ok => none
  | .socketUnavailable => some .socketUnavailable
  | .addressMalformed => some .addressMalformed
  | .hostUnresolvable => some .hostUnresolvable

/-- The cause of a TransientSendError, if the sink's answer is one (60_exceptions.md rule R200). -/
def sinkCause : SinkAnswer → Option Cause
  | .ok => none
  | .short _ => some .sendShort
  | .err => some .sendErr

/-- Brings an answer into the set a SEND draws from, for frames of `len` bytes: a short acceptance takes fewer than
`len` bytes (44_frame_output.md rule R162). -/
def legalAnswer (len : Nat) : SinkAnswer → SinkAnswer
  | .ok => .ok
  | .short k => .short (k % len)
  | .err => .err

/-- A failing answer, from a free choice between a short acceptance and an error. -/
def failingAnswer (len : Nat) : Option Nat → SinkAnswer
  | some k => .short (k % len)
  | none => .err

/-- The answer the sink gives to one frame: a frame larger than `MAX_MSG` is never answered OK
(70_reset_and_hazards.md rule R255); which failure answers it then is the free choice `f`. -/
def sinkReply (c : Config) (f : Option Nat) (a : SinkAnswer) : SinkAnswer :=
  match legalAnswer (frameLen c) a with
  | .ok => if frameLen c ≤ c.maxMsg then .ok else failingAnswer (frameLen c) f
  | .short k => .short k
  | .err => .err

end Sys2Proof.Machine
end

