-- ==== Sys2Proof/Machine/Ops.lean ====
section
/-!
DEFINITION. The named operations the meanings share: sequencing outcomes, phase guards, events, the two register
reads, the two opens, the entry of a fatal error, reading and writing the two buffers, and the sink's reply.
-/
namespace Sys2Proof.Machine

/-- What a meaning answers. -/
abbrev Result := Host.Outcome State Fault Refusal

/-- Runs the second operation on the state the first leaves; a stop of the first is a stop of both. -/
def andThen (r : Result) (k : State → Result) : Result :=
  match r with
  | .next s => k s
  | .fault f => .fault f
  | .refused e => .refused e

/-- The precondition `PH == p` of an operation's rule. -/
def inPhase (p : Phase) (s : State) (r : Result) : Result :=
  if s.ph = p then r else .refused (.notEnabled s.ph)

/-- A register read "needs `WIN != none`" (41_register_interface.md rule R103). -/
def withWindow (s : State) (k : Window → Result) : Result :=
  match s.win with
  | some w => k w
  | none => .fault .windowNotOpen

/-- After `EXIT` or KILL no register is read: "no event follows" (00_scope.md rule R9). -/
def whileAlive (s : State) (r : Result) : Result := if s.ph.terminal then .fault (.runEnded s.ph) else r

/-- `PH <- p` (00_scope.md rule R4). -/
def State.goto (s : State) (p : Phase) : State := { s with ph := p }

/-- `emit e`: the event is appended to the trace (00_scope.md rule R4). -/
def State.emit (s : State) (e : Event) : State := { s with trace := s.trace ++ [e] }

/-- Gives the caller of a contract operation its result. -/
def State.give (s : State) (a : Answer) : State := { s with answer := a }

/-! ### Register reads (41_register_interface.md) -/

/-- The end of a register read: the event `RD off -> v` at `BASE + 4*off`, and `return v` (R103). -/
def State.readDone (s : State) (w : Window) (off v : Word) : State :=
  (s.emit (.rd off (w.addr off) v)).give (.value v)

/-- RD_OCC (R104): the value is `len(Q)` and `Q` is unchanged; an injected source answers from its script (R128). -/
def readOcc (w : Window) (s : State) : Word × State :=
  match s.source with
  | .fifo =>
    (BitVec.ofNat 32 s.q.length, s.readDone w s.cfg.occOff (BitVec.ofNat 32 s.q.length))
  | .script (v :: occ) data =>
    (v, State.readDone { s with source := .script occ data } w s.cfg.occOff v)
  | .script [] _ =>
    (Config.freeScript s.draws,
      State.readDone { s with draws := s.draws + 1 } w s.cfg.occOff (Config.freeScript s.draws))

/-- RD_DATA (R106): the value is `head(Q)` and `Q` is popped; from an empty queue the ghost bit `undf` is set, the
value is free and `Q` stays empty (10_state.md rule R28). An injected source answers from its script (R128). -/
def readData (w : Window) (s : State) : Word × State :=
  match s.source with
  | .fifo =>
    match s.q with
    | v :: rest => (v, State.readDone { s with q := rest } w s.cfg.dataOff v)
    | [] =>
      (Config.freeWord s.draws,
        State.readDone { s with undf := true, draws := s.draws + 1 } w s.cfg.dataOff (Config.freeWord s.draws))
  | .script occ (v :: data) =>
    (v, State.readDone { s with source := .script occ data } w s.cfg.dataOff v)
  | .script _ [] =>
    (Config.freeScript s.draws,
      State.readDone { s with draws := s.draws + 1 } w s.cfg.dataOff (Config.freeScript s.draws))

/-! ### Opening the window and the sink, and the entry of an error (60_exceptions.md) -/

/-- `OPEN_RI ... -> ERR(c)` and `raise` (R100): nothing but the event and the caller's result. -/
def openRiFails (base span : Nat) (c : Cause) (s : State) : State :=
  (s.emit (.openRi base span (some c))).give (.error c)

/-- RI_OPEN (41_register_interface.md rule R100): the construction-time check, then the platform's answer. The first
component is the cause it raises, if it raises one. -/
def openWindow (base span : Nat) (s : State) : Option Cause × State :=
  if offsetsInside s.cfg span then
    match riCause s.riAnswer with
    | none =>
      (none, (State.emit { s with win := some (Window.mk base span) } (.openRi base span none)).give .opened)
    | some c => (some c, openRiFails base span c s)
  else (some .boundsAtOpen, openRiFails base span .boundsAtOpen s)

/-- TX_OPEN (44_frame_output.md rule R160): the platform's answer. -/
def openSink (d : Dest) (s : State) : Option Cause × State :=
  match txCause s.txAnswer with
  | none => (none, (State.emit { s with txh := some d } (.openTx d none)).give .opened)
  | some c => (some c, (s.emit (.openTx d (some c))).give (.error c))

/-- The report of a fatal error: the usage message for a configuration error (R203), otherwise a report that names
the cause (45_acquisition_loop.md rule R190). -/
def failReport : Cause → Event
  | .cfgInvalid => .usage
  | c => .failureReport c

/-- THE ENTRY OF A FATAL ERROR (60_exceptions.md rule R212, 45_acquisition_loop.md rule R190): the report,
`PH <- FAILED`, `EXIT status`. Nothing is saved, no handler runs, and no operation returns from it (R216). -/
def takeFatal (c : Cause) (status : Nat) (s : State) : State :=
  ((s.emit (failReport c)).goto .failed).emit (.exit status)

/-- The entry of a TransientSendError (60_exceptions.md rules R204, R214): the report, and nothing else, when the
sink's answer is a failure. -/
def reportSend (a : SinkAnswer) (s : State) : State :=
  match sinkCause a with
  | none => s
  | some _ => s.emit .reportTransient

/-! ### The two buffers (10_state.md rules R15, R16, R31) -/

/-- A read of `WBUF[i]`; an entry that holds no value yields a free one. -/
def State.wordAt (s : State) (i : Nat) : Word :=
  match cellAt s.wbuf i with
  | some v => v
  | none => Config.freeEntry s.draws i

/-- `WBUF[0..N-1]`. -/
def State.words (s : State) : List Word := (List.range s.cfg.n).map s.wordAt

/-- Whether every entry `WBUF[0..N-1]` holds a value. -/
def State.wordsHeld (s : State) : Bool := (List.range s.cfg.n).all (fun i => (cellAt s.wbuf i).isSome)

/-- A read of `FB[j]`; a byte that holds no value yields a free one. -/
def State.byteAt (s : State) (j : Nat) : Byte :=
  match cellAt s.fb j with
  | some v => v
  | none => Config.freeByte s.draws j

/-- `FB[0..FRAME_LEN-1]`. -/
def State.frame (s : State) : List Byte := (List.range (frameLen s.cfg)).map s.byteAt

/-- Whether every byte `FB[0..FRAME_LEN-1]` holds a value. -/
def State.frameHeld (s : State) : Bool := (List.range (frameLen s.cfg)).all (fun j => (cellAt s.fb j).isSome)

/-- Records a read of registers: where one of them held no value, the ghost bit `unwr` is set and a draw is used up
(10_state.md rule R31, 93_implementation_defined.md U24). -/
def State.noteRead (s : State) (held : Bool) : State :=
  if held then s else { s with unwr := true, draws := s.draws + 1 }

/-- Writes bytes of `FB` from an offset upward. -/
def State.putFrame (s : State) (j : Nat) (bs : List Byte) : State := { s with fb := putCells s.fb j bs }

/-! ### The sink -/

/-- The sink's answer to one SEND (44_frame_output.md rule R162): the next the state lists, else a free one. -/
def takeReply (s : State) : SinkAnswer × State :=
  match s.sink with
  | a :: rest =>
    (sinkReply s.cfg (Config.freeFailure s.draws) a, { s with sink := rest, draws := s.draws + 1 })
  | [] =>
    (sinkReply s.cfg (Config.freeFailure s.draws) (Config.freeAnswer s.draws), { s with draws := s.draws + 1 })

end Sys2Proof.Machine
end

