-- ==== Sys2Proof/Machine/Control.lean ====
section
/-!
DEFINITION. The operations of the Acquisition Loop that are one step (45_acquisition_loop.md): INIT, ADV, FAIL, and
the steps of the host and the producer, KILL and PUSH.
-/
namespace Sys2Proof.Machine

/-- The end of a successful INIT (R180): the counter, the index, the status line, and `PH <- POLL`. -/
def initDone (s : State) : State :=
  (State.emit { s with seq := s.cfg.seqInit, idx := 0 } .status).goto .poll

/-- INIT's last two parts, once the window is open (R180): TX_OPEN, and the end. -/
def initSink (d : Dest) (s : State) : State :=
  match openSink d s with
  | (none, t) => initDone t
  | (some c, t) => takeFatal c t.cfg.exitFail t

/-- INIT with a valid destination (R180): RI_OPEN, then TX_OPEN; the first failure ends it (60_exceptions.md rule
R210). -/
def initOpen (d : Dest) (s : State) : State :=
  match openWindow s.cfg.base s.cfg.span s with
  | (none, t) => initSink d t
  | (some c, t) => takeFatal c t.cfg.exitFail t

/-- INIT (R180): the configuration is checked before any resource is opened. -/
def execInit (s : State) : Result :=
  inPhase .init s
    (match destOf s.cfg with
    | none => .next (takeFatal .cfgInvalid 1 s)
    | some d => .next (initOpen d s))

/-- ADV (R188): `SEQ <- (SEQ + 1) mod 2^32`, `PH <- POLL`. -/
def execAdv (s : State) : Result := inPhase .adv s (.next (State.goto { s with seq := s.seq + 1 } .poll))

/-- FAIL (R190), "taken inside INIT on the first failure and nowhere else". -/
def execFail (cause : Cause) (status : Nat) (s : State) : Result :=
  inPhase .init s
    (if fatalCause cause && failStatusOk cause status then .next (takeFatal cause status s)
    else .refused .badOperand)

/-- KILL (R192): `PH <- HALTED`, "enabled in every phase except `FAILED` and `HALTED`". -/
def execKill (s : State) : Result :=
  if s.ph.terminal then .refused (.notEnabled s.ph) else .next ((s.emit .kill).goto .halted)

/-- PUSH (R194), enabled at any time. A push into a full queue sets `ovf`, and the queue is then any queue of at most
`DEPTH` words (10_state.md rule R27). -/
def execPush (w : Word) (s : State) : Result :=
  if s.q.length < s.cfg.depth then .next (State.emit { s with q := s.q ++ [w] } (.push w))
  else .next (State.emit
    { s with ovf := true, q := (Config.freeQueue s.draws).take s.cfg.depth, draws := s.draws + 1 } (.push w))

end Sys2Proof.Machine
end

