-- ==== Sys2Proof/Machine/FifoReader.lean ====
section
/-!
DEFINITION. The two steps of the Fifo Reader (42_fifo_reader.md): POLL and POP. NEXT_WORD, which is made of them, is
in Loop.lean, where the turns of the other agents are.
-/
namespace Sys2Proof.Machine

/-- What POLL does with the occupancy it read (R121): the latch, and the next phase. -/
def pollDone (v : Word) (s : State) : State :=
  State.goto { s with occLast := v, occHeld := true } (if wordAvailable v then .pop else .poll)

/-- POLL (R121). -/
def execPoll (s : State) : Result :=
  inPhase .poll s (withWindow s (fun w => .next (pollDone (readOcc w s).1 (readOcc w s).2)))

/-- What POP does with the word it read (R124): `WBUF[IDX]`, `IDX` and the next phase. -/
def popDone (v : Word) (s : State) : State :=
  if lastWord s.cfg s.idx then State.goto { s with wbuf := putCell s.wbuf s.idx v, idx := 0 } .pack
  else State.goto { s with wbuf := putCell s.wbuf s.idx v, idx := s.idx + 1 } .poll

/-- POP (R124), whose precondition is `PH == POP, 0 <= IDX < N`. -/
def execPop (s : State) : Result :=
  inPhase .pop s (withWindow s (fun w =>
    if s.idx < s.cfg.n then .next (popDone (readData w s).1 (readData w s).2)
    else .fault (.indexOutOfRange s.idx)))

end Sys2Proof.Machine
end

