-- ==== Sys2Proof/Machine/FrameAssembler.lean ====
section
/-!
DEFINITION. The Frame Assembler operations (43_frame_assembler.md): PACK_CTR, PACK_IQ, BUILD_FRAME. Each reads its
arguments and writes `FB`; none touches the window or the FIFO (R140).
-/
namespace Sys2Proof.Machine

/-- PACK_CTR (R142): `FB[0..3] = LE32(c)`. -/
def execPackCtr (c : Word) (s : State) : Result := inPhase .pack s (.next (s.putFrame 0 (le32 c)))

/-- PACK_IQ (R144): `FB[4+4i .. 5+4i] = LE16(I)`, `FB[6+4i .. 7+4i] = LE16(Q)`. -/
def execPackIq (i : Nat) (w : Word) (s : State) : Result :=
  inPhase .pack s
    (if i < s.cfg.n then .next (s.putFrame (4 + 4 * i) (iqBytes w)) else .fault (.indexOutOfRange i))

/-- BUILD_FRAME (R146), the step of phase `PACK`: `FB <- BUILD_FRAME(SEQ, WBUF[0..N-1])`, `PH <- SEND`. -/
def execBuildFrame (s : State) : Result :=
  inPhase .pack s
    (.next (((s.putFrame 0 (frameOf s.seq s.words)).noteRead s.wordsHeld).goto .send))

end Sys2Proof.Machine
end

