-- ==== Sys2Proof/Machine/FrameOutput.lean ====
section
/-!
DEFINITION. The frame output operations (44_frame_output.md): TX_OPEN and SEND.
-/
namespace Sys2Proof.Machine

/-- TX_OPEN (R160): the second sub-operation of INIT, performed only if RI_OPEN succeeded and at most once. -/
def execTxOpen (d : Dest) (s : State) : Result :=
  inPhase .init s
    (match s.win, s.txh with
    | some _, none => .next (openSink d s).2
    | _, _ => .refused (.notEnabled s.ph))

/-- What SEND does with the sink's answer (R162): the event, the report of a failure, and `PH <- ADV` whatever the
answer was. -/
def sendDone (d : Dest) (f : List Byte) (a : SinkAnswer) (s : State) : State :=
  (reportSend a (s.emit (.send d f a))).goto .adv

/-- SEND (R162): one attempt with the whole of `FB`. -/
def execSend (s : State) : Result :=
  inPhase .send s
    (match s.txh with
    | some d => .next (sendDone d s.frame (takeReply s).1 ((takeReply s).2.noteRead s.frameHeld))
    | none => .fault .sinkNotOpen)

end Sys2Proof.Machine
end

