-- ==== Sys2Proof/Machine/RegisterInterface.lean ====
section
/-!
DEFINITION. The Register Interface operations (41_register_interface.md): RI_OPEN, RD_OCC, RD_DATA, RD_UNDEF, RD_OOB,
WR.
-/
namespace Sys2Proof.Machine

/-- RI_OPEN (R100): the first sub-operation of INIT, performed once, so with `WIN` still `none`. -/
def execRiOpen (base span : Nat) (s : State) : Result :=
  inPhase .init s
    (match s.win with
    | none => .next (openWindow base span s).2
    | some _ => .refused (.notEnabled s.ph))

/-- RD_OCC (R104). -/
def execRdOcc (s : State) : Result := withWindow s (fun w => whileAlive s (.next (readOcc w s).2))

/-- RD_DATA (R106). -/
def execRdData (s : State) : Result := withWindow s (fun w => whileAlive s (.next (readData w s).2))

/-- RD_UNDEF (R108): refused; it "must not return 0, must not return a draw and go on". -/
def execRdUndef (off : Word) (_ : State) : Result := .refused (.undefinedRegister off)

/-- RD_OOB (R109): `raise BoundsError(BOUNDS_AT_READ, OFF)` to the caller; no bus access, no event, no state
change. -/
def execRdOob (off : Word) (s : State) : Result :=
  withWindow s (fun w =>
    if w.span ≤ off.toNat then .next (s.give (.error (.boundsAtRead off))) else .refused .badOperand)

/-- WR (R110): refused. -/
def execWr (off value : Word) (_ : State) : Result := .refused (.registerWrite off value)

end Sys2Proof.Machine
end

