-- ==== Sys2Proof/Machine/Loop.lean ====
section
/-!
DEFINITION. The interleaving of the agents (45_acquisition_loop.md rule R196): what a step fetches, one turn, and the
three pseudo-operations made of turns: NEXT_WORD, COLLECT, CYCLE.
-/
namespace Sys2Proof.Machine

/-- The label of a phase (30_encoding.md rule R79). -/
def phaseLabel : Phase → Nat
  | .init => 0
  | .poll => 1
  | .pop => 2
  | .pack => 3
  | .send => 4
  | .adv => 5
  | .failed => 6
  | .halted => 7

/-- The phase of a label (30_encoding.md rule R79). -/
def labelPhase : Nat → Option Phase
  | 0 => some .init
  | 1 => some .poll
  | 2 => some .pop
  | 3 => some .pack
  | 4 => some .send
  | 5 => some .adv
  | 6 => some .failed
  | 7 => some .halted
  | _ => none

/-- The bytes a sequencer step is selected by: the label of `PH`. -/
def phaseBytes (p : Phase) : List Byte := [BitVec.ofNat 8 (phaseLabel p)]

/-- The span a register access is checked against: that of the open window, else the configured one. -/
def spanNow (s : State) : Nat :=
  match s.win with
  | some w => w.span
  | none => s.cfg.span

/-- The configuration a register access is decoded under. -/
def busCfg (s : State) : Config := { s.cfg with span := spanNow s }

/-- What a step finds to do: an operation and the state it runs in, the end of the run, or a turn that is refused. -/
inductive Fetched where
  | op (i : Instr) (s : State)
  | ended (ph : Phase)
  | bad (e : Refusal)
  deriving DecidableEq, Repr

/-- The two reads that only the sequencer makes, inside POLL and POP (41_register_interface.md rules R103, R105,
R107). -/
def consumes (i : Instr) : Bool := i == .rdOcc || i == .rdData

/-- The sequencer's operation: `PH` determines it (10_state.md rule R11), and in a terminal phase there is none. -/
def fetchPhase (s : State) : Fetched :=
  match decode s.cfg .phase (phaseBytes s.ph) with
  | .ok (i, _) => .op i s
  | .error _ => .ended s.ph

/-- What the next step does: the first turn the agenda lists, and the sequencer's where it lists none. The turn is
taken off the agenda first. -/
def fetch (s : State) : Fetched :=
  match s.agenda with
  | [] => fetchPhase s
  | .seq :: rest => fetchPhase { s with agenda := rest }
  | .push w :: rest => .op (.push w) { s with agenda := rest }
  | .kill :: rest => .op .kill { s with agenda := rest }
  | .access bytes :: rest =>
    match decode (busCfg s) .reg bytes with
    | .ok (i, _) => if consumes i then .bad .secondConsumer else .op i { s with agenda := rest }
    | .error e => .bad (.undecodable e)

/-- One step of the sequencer by its phase (45_acquisition_loop.md rule R181). -/
def seqTurn (s : State) : Result :=
  match s.ph with
  | .init => execInit s
  | .poll => execPoll s
  | .pop => execPop s
  | .pack => execBuildFrame s
  | .send => execSend s
  | .adv => execAdv s
  | .failed => .fault (.runEnded .failed)
  | .halted => .fault (.runEnded .halted)

/-- A call of the read contract by another caller: the operation its bytes select (30_encoding.md rule R70). It never
reaches a register: outside the window it is answered with a BoundsError (41_register_interface.md rule R109), and a
second consumer has no move (93_implementation_defined.md U23). -/
def accessTurn (bytes : List Byte) (rest : List Turn) (s : State) : Result :=
  match decodeReg (busCfg s) bytes with
  | .ok (.rdOcc, _) => .refused .secondConsumer
  | .ok (.rdData, _) => .refused .secondConsumer
  | .ok (.rdUndef off, _) => execRdUndef off { s with agenda := rest }
  | .ok (.rdOob off, _) => execRdOob off { s with agenda := rest }
  | .ok (.wr off value, _) => execWr off value { s with agenda := rest }
  | .ok (_, _) => .refused .badOperand
  | .error e => .refused (.undecodable e)

/-- One turn of the whole system, of which the pseudo-operations are made. It is what `step` does. -/
def turn (s : State) : Result :=
  match s.agenda with
  | [] => seqTurn s
  | .seq :: rest => seqTurn { s with agenda := rest }
  | .push w :: rest => execPush w { s with agenda := rest }
  | .kill :: rest => execKill { s with agenda := rest }
  | .access bytes :: rest => accessTurn bytes rest s

/-- Turns for as long as the sequencer is in a phase, at most `fuel` of them. -/
def turnsWhile (p : Phase) : Nat → State → Result
  | 0, s => .next s
  | fuel + 1, s => if s.ph = p then andThen (turn s) (turnsWhile p fuel) else .next s

/-- The inputs of the other agents still to come, with one turn more: past these, nothing but the sequencer itself
moves, and a further poll of the same empty queue would only read 0 again. -/
def patience (s : State) : Nat :=
  s.agenda.length + (match s.source with | .fifo => 0 | .script occ _ => occ.length) + 1

/-- Turns until the sequencer leaves a phase. -/
def leavePhase (p : Phase) (s : State) : Result := turnsWhile p (patience s) s

/-- The end of a POP, or of a run that a KILL ended before it: only the first is a return (42_fifo_reader.md rule
R127). -/
def popReturn (s : State) : State := if s.ph.terminal then s.give .waiting else s

/-- What follows the poll loop: the pop, or, where the loop was not left for it, a call that has not returned. -/
def popTurns (s : State) : Result :=
  if s.ph = .pop then andThen (leavePhase .pop s) (fun t => .next (popReturn t)) else .next (s.give .waiting)

/-- `POLL^(k+1) ; POP` (42_fifo_reader.md rule R127): the poll loop, then the pop, whose word is the answer. "it
returns only when a word has been read": if no word comes while the inputs of the other agents last, the answer is
`waiting` and the operation is still polling, as R123 says (assumption 14). -/
def nextWordTurns (s : State) : Result := andThen (leavePhase .poll s) popTurns

/-- NEXT_WORD (42_fifo_reader.md rule R127). -/
def execNextWord (s : State) : Result := inPhase .poll s (nextWordTurns s)

/-- Goes on once a NEXT_WORD has returned; one that has not keeps its caller waiting. -/
def afterReturn (k : State → Result) (s : State) : Result :=
  match s.answer with
  | .waiting => .next s
  | .nothing | .opened | .value _ | .error _ => k s

/-- NEXT_WORD a number of times (45_acquisition_loop.md rule R184), each begun when the one before it has returned. -/
def collectTurns : Nat → State → Result
  | 0, s => .next s
  | k + 1, s => andThen (nextWordTurns s) (afterReturn (collectTurns k))

/-- COLLECT (45_acquisition_loop.md rule R184): the `N` words of a frame, or what is missing of them where it resumes
with `IDX` not 0 (assumption 14). -/
def execCollect (s : State) : Result := inPhase .poll s (collectTurns (s.cfg.n - s.idx) s)

/-- CYCLE (45_acquisition_loop.md rule R186): `COLLECT ; BUILD_FRAME ; SEND ; ADV`, each complete before the next
starts. -/
def execCycle (s : State) : Result :=
  inPhase .poll s
    (andThen (collectTurns (s.cfg.n - s.idx) s) (fun s1 =>
      andThen (leavePhase .pack s1) (fun s2 =>
        andThen (leavePhase .send s2) (leavePhase .adv))))

/-- `WIN` and `TXH` as every streaming phase has them (10_state.md rule R33), where they are not open yet. -/
def openHandles (s : State) : State :=
  { s with
    win := some (s.win.getD (Window.mk s.cfg.base s.cfg.span))
    txh := match s.txh with | some d => some d | none => destOf s.cfg }

/-- Selects a phase for the next step: `PH`, a turn of the sequencer, and for a streaming phase the open handles. -/
def placePhase (p : Phase) (s : State) : State :=
  match p.streaming with
  | true => { openHandles s with ph := p, agenda := .seq :: s.agenda }
  | false => { s with ph := p, agenda := .seq :: s.agenda }

/-- The phase a table word stands for. -/
def tablePhase (nbits w : Nat) : Option Phase :=
  match tableBytes nbits w with
  | [b] => labelPhase b.toNat
  | _ => none

/-- Selects the register access of some bytes: a read of OCC or of DATA is made by the sequencer in the phase that
issues it (41_register_interface.md rules R105, R107), and every other by another caller, with the window open. -/
def placeAccess (bytes : List Byte) (s : State) : State :=
  match decode (busCfg s) .reg bytes with
  | .ok (.rdOcc, _) => placePhase .poll s
  | .ok (.rdData, _) => placePhase .pop s
  | _ => { openHandles s with agenda := .access bytes :: s.agenda }

/-- Selects what a table word stands for as the next step's operation (assumption 15): a phase by its label, a
register access by its descriptor, and nothing for a word that is neither. -/
def placeWord (s : State) (nbits w : Nat) : State :=
  match tableFormat nbits with
  | .phase =>
    match tablePhase nbits w with
    | some p => placePhase p s
    | none => { s with agenda := .access [] :: s.agenda }
  | _ => placeAccess (tableBytes nbits w) s

end Sys2Proof.Machine
end

