-- ==== Sys2Proof/Machine/Dispatch.lean ====
section
/-! DEFINITION. exec: one arm per operation, each one direct call of its meaning. -/
namespace Sys2Proof.Machine

def exec (i : Instr) (s : State) : Host.Outcome State Fault Refusal :=
  match i with
  | .riOpen base span => Sys2Proof.Machine.execRiOpen base span s
  | .rdOcc => Sys2Proof.Machine.execRdOcc s
  | .rdData => Sys2Proof.Machine.execRdData s
  | .rdUndef off => Sys2Proof.Machine.execRdUndef off s
  | .rdOob off => Sys2Proof.Machine.execRdOob off s
  | .wr off value => Sys2Proof.Machine.execWr off value s
  | .poll => Sys2Proof.Machine.execPoll s
  | .pop => Sys2Proof.Machine.execPop s
  | .nextWord => Sys2Proof.Machine.execNextWord s
  | .packCtr c => Sys2Proof.Machine.execPackCtr c s
  | .packIq k w => Sys2Proof.Machine.execPackIq k w s
  | .buildFrame => Sys2Proof.Machine.execBuildFrame s
  | .txOpen d => Sys2Proof.Machine.execTxOpen d s
  | .send => Sys2Proof.Machine.execSend s
  | .init => Sys2Proof.Machine.execInit s
  | .collect => Sys2Proof.Machine.execCollect s
  | .adv => Sys2Proof.Machine.execAdv s
  | .cycle => Sys2Proof.Machine.execCycle s
  | .fail cause status => Sys2Proof.Machine.execFail cause status s
  | .kill => Sys2Proof.Machine.execKill s
  | .push w => Sys2Proof.Machine.execPush w s

end Sys2Proof.Machine
end

