-- ==== Sys2Proof/Machine/Step.lean ====
section
/-! DEFINITION. One step of the whole system, and the host's way to select an operation for it. -/
namespace Sys2Proof.Machine

/-- One step: what `fetch` finds is run (45_acquisition_loop.md rules R181, R196). In a terminal phase the sequencer
has no step (R181), which is a stop. -/
def step (s : State) : Host.Outcome State Fault Refusal :=
  match fetch s with
  | .op i t => exec i t
  | .ended p => .fault (.runEnded p)
  | .bad e => .refused e

/-- The state whose next step runs the operation a table word stands for (assumption 15). -/
def State.withFetchWord (s : State) (nbits w : Nat) : State := placeWord s nbits w

end Sys2Proof.Machine
end

