-- ==== Sys2Proof/Laws/Bytes.lean ====
section
/-!
SUPPORT. Bytes and words: the little-endian groups, and putting a word together from its bytes.
-/
namespace Sys2Proof.Machine

@[simp] theorem le32_length (w : Word) : (le32 w).length = 4 := rfl
@[simp] theorem iqBytes_length (w : Word) : (iqBytes w).length = 4 := rfl

/-- The four bytes of a word, put together again. -/
theorem word_of_bytes (w : Word) :
    (w.extractLsb' 24 8 ++ w.extractLsb' 16 8 ++ w.extractLsb' 8 8 ++ w.extractLsb' 0 8 : BitVec 32) = w := by
  apply BitVec.eq_of_getLsbD_eq
  intro i hi
  simp only [BitVec.getLsbD_append, BitVec.getLsbD_extractLsb']
  split
  · simp; omega
  · split
    · next h1 h2 => simp [show i - 8 < 8 by omega, show 8 + (i - 8) = i by omega]
    · split
      · next h1 h2 h3 => simp [show i - 8 - 8 < 8 by omega, show 16 + (i - 8 - 8) = i by omega]
      · next h1 h2 h3 => simp [show i - 8 - 8 - 8 < 8 by omega, show 24 + (i - 8 - 8 - 8) = i by omega]

/-- A sample pair's four bytes, field by field. -/
theorem iqBytes_eq (w : Word) :
    iqBytes w = [w.extractLsb' 0 8, w.extractLsb' 8 8, w.extractLsb' 16 8, w.extractLsb' 24 8] := by
  have e : ∀ a, a + 8 ≤ 16 → ∀ b, (BitVec.extractLsb' a 8 (w.extractLsb' b 16)) = w.extractLsb' (b + a) 8 := by
    intro a ha b
    apply BitVec.eq_of_getLsbD_eq
    intro i hi
    simp [hi, show a + i < 16 by omega, Nat.add_assoc]
  simp [iqBytes, le16, iPart, qPart, e]

end Sys2Proof.Machine
end

