-- ==== Sys2Proof/Laws/Encoding.lean ====
section
/-!
SUPPORT. The bytes of a register-access descriptor, and what the decoder makes of them.
-/
namespace Sys2Proof

@[simp] theorem wordOfBytes_bytes (w : Word) :
    wordOfBytes (w.extractLsb' 0 8) (w.extractLsb' 8 8) (w.extractLsb' 16 8) (w.extractLsb' 24 8) = w :=
  Machine.word_of_bytes w

/-- The bits of a descriptor: `OFF` below bit 32, `K` at bit 32. -/
theorem descriptor_getLsbD (k : Bool) (off : Word) (i : Nat) :
    (descriptor k off).getLsbD i = if i < 32 then off.getLsbD i else (BitVec.ofBool k).getLsbD (i - 32) :=
  BitVec.getLsbD_append ..

/-- A byte of the descriptor below bit 32 is that byte of the offset. -/
theorem descriptor_low (k : Bool) (off : Word) (a : Nat) (h : a + 8 ≤ 32) :
    (descriptor k off).extractLsb' a 8 = off.extractLsb' a 8 := by
  apply BitVec.eq_of_getLsbD_eq
  intro i hi
  rw [BitVec.getLsbD_extractLsb', BitVec.getLsbD_extractLsb', descriptor_getLsbD, if_pos (by omega)]

/-- The descriptor's fifth byte is its kind. -/
theorem descriptor_high (k : Bool) (off : Word) :
    (descriptor k off).extractLsb' 32 8 = if k then 1 else 0 := by
  apply BitVec.eq_of_getLsbD_eq
  intro i hi
  rw [BitVec.getLsbD_extractLsb', descriptor_getLsbD, if_neg (by omega), Nat.add_sub_cancel_left]
  interval_cases i <;> cases k <;> rfl

theorem descriptorBytes_descriptor (k : Bool) (off : Word) :
    descriptorBytes (descriptor k off) =
      [off.extractLsb' 0 8, off.extractLsb' 8 8, off.extractLsb' 16 8, off.extractLsb' 24 8, if k then 1 else 0] := by
  simp [descriptorBytes, descriptor_low, descriptor_high]

/-- A read's descriptor selects by the table of 30_encoding.md rule R70. -/
theorem decodeReg_read (c : Config) (off : Word) (rest : List Byte) :
    decodeReg c (descriptorBytes (descriptor false off) ++ rest) = .ok (selectRead c off, rest) := by
  simp [descriptorBytes_descriptor, decodeReg]

/-- A write's descriptor and VALUE. -/
theorem decodeReg_write (c : Config) (off value : Word) (rest : List Byte) :
    decodeReg c (descriptorBytes (descriptor true off) ++ (bytesOfWord value ++ rest)) = .ok (.wr off value, rest) := by
  simp [descriptorBytes_descriptor, decodeReg, decodeWrite, bytesOfWord]

end Sys2Proof
end

