-- ==== Sys2Proof/Laws/PerInstr.lean ====
section
/-!
SUPPORT. The family of statements made per instruction: Encoding, that decoding the encoding of a well-formed
operation gives it back, and which operations have an encoding.
-/
namespace Sys2Proof.Laws.Encoding

/-- An operation of format PHASE or REG, well-formed under a configuration, is what the decoder reads from its
encoding, and nothing of what follows is taken; an operation of format SUB, PSEUDO or ENV has no encoding, and its
format selects nothing (30_encoding.md rules R70, R79, R80). -/
def Statement (i : Instr) : Prop :=
  ∀ (c : Config) (rest : List Byte), i.wf c = true →
    ((formatOf i = .phase ∨ formatOf i = .reg) ∧
      ∃ bytes, encode c i = some (formatOf i, bytes) ∧ decode c (formatOf i) (bytes ++ rest) = .ok (i, rest)) ∨
    ((formatOf i = .sub ∨ formatOf i = .pseudo ∨ formatOf i = .env) ∧
      encode c i = none ∧ decode c (formatOf i) rest = .error .noPattern)

theorem riOpen (base span : Nat) : Statement (.riOpen base span) := fun _ _ _ => .inr ⟨.inl rfl, rfl, rfl⟩

theorem rdOcc : Statement .rdOcc := by
  intro c rest h
  refine .inl ⟨.inr rfl, _, rfl, ?_⟩
  simp only [Instr.wf, decide_eq_true_eq] at h
  simp [formatOf, decode, decodeReg_read, selectRead, Nat.not_le.2 h]

theorem rdData : Statement .rdData := by
  intro c rest h
  refine .inl ⟨.inr rfl, _, rfl, ?_⟩
  simp only [Instr.wf, Bool.and_eq_true, decide_eq_true_eq] at h
  simp [formatOf, decode, decodeReg_read, selectRead, Nat.not_le.2 h.1, h.2]

theorem rdUndef (off : Word) : Statement (.rdUndef off) := by
  intro c rest h
  refine .inl ⟨.inr rfl, _, rfl, ?_⟩
  simp only [Instr.wf, Bool.and_eq_true, decide_eq_true_eq] at h
  simp [formatOf, decode, decodeReg_read, selectRead, Nat.not_le.2 h.1.1, h.1.2, h.2]

theorem rdOob (off : Word) : Statement (.rdOob off) := by
  intro c rest h
  refine .inl ⟨.inr rfl, _, rfl, ?_⟩
  simp only [Instr.wf, decide_eq_true_eq] at h
  simp [formatOf, decode, decodeReg_read, selectRead, h]

theorem wr (off value : Word) : Statement (.wr off value) := by
  intro c rest _
  refine .inl ⟨.inr rfl, _, rfl, ?_⟩
  simp [formatOf, decode, decodeReg_write]

theorem poll : Statement .poll := fun _ _ _ => .inl ⟨.inl rfl, _, rfl, rfl⟩
theorem pop : Statement .pop := fun _ _ _ => .inl ⟨.inl rfl, _, rfl, rfl⟩
theorem nextWord : Statement .nextWord := fun _ _ _ => .inr ⟨.inr (.inl rfl), rfl, rfl⟩
theorem packCtr (c : Word) : Statement (.packCtr c) := fun _ _ _ => .inr ⟨.inl rfl, rfl, rfl⟩
theorem packIq (i : Nat) (w : Word) : Statement (.packIq i w) := fun _ _ _ => .inr ⟨.inl rfl, rfl, rfl⟩
theorem buildFrame : Statement .buildFrame := fun _ _ _ => .inl ⟨.inl rfl, _, rfl, rfl⟩
theorem txOpen (d : Dest) : Statement (.txOpen d) := fun _ _ _ => .inr ⟨.inl rfl, rfl, rfl⟩
theorem send : Statement .send := fun _ _ _ => .inl ⟨.inl rfl, _, rfl, rfl⟩
theorem init : Statement .init := fun _ _ _ => .inl ⟨.inl rfl, _, rfl, rfl⟩
theorem collect : Statement .collect := fun _ _ _ => .inr ⟨.inr (.inl rfl), rfl, rfl⟩
theorem adv : Statement .adv := fun _ _ _ => .inl ⟨.inl rfl, _, rfl, rfl⟩
theorem cycle : Statement .cycle := fun _ _ _ => .inr ⟨.inr (.inl rfl), rfl, rfl⟩
theorem fail (cause : Cause) (status : Nat) : Statement (.fail cause status) := fun _ _ _ => .inr ⟨.inl rfl, rfl, rfl⟩
theorem kill : Statement .kill := fun _ _ _ => .inr ⟨.inr (.inr rfl), rfl, rfl⟩
theorem push (w : Word) : Statement (.push w) := fun _ _ _ => .inr ⟨.inr (.inr rfl), rfl, rfl⟩

end Sys2Proof.Laws.Encoding
end

