-- ==== Sys2Proof/Safety.lean ====
section
/-!
DEFINITION. What the claims speak of: the premises 00_scope.md rule R8 names, what a trace holds, the transition table
(45_acquisition_loop.md rule R181), and the invariants of 10_state.md section 6.
-/
namespace Sys2Proof.Machine

/-- The constraints 00_scope.md rule R2 puts on the parameters. `FRAME_LEN <= MAX_MSG` is no part of them: it is a
premise of its own (70_reset_and_hazards.md rule R255). -/
def Admissible (c : Config) : Prop :=
  c.base % 4 = 0 ∧ c.occOff ≠ c.dataOff ∧ offsetsInside c c.span = true ∧ 1 ≤ c.n ∧ 1 ≤ c.depth ∧
    c.depth < 2 ^ 32 ∧ c.exitFail ≠ 0

/-! ### What a trace holds -/

/-- The event of a register read (00_scope.md rule R5, 20_memory.md rule R42). -/
def rdEvent (w : Window) (off v : Word) : Event := .rd off (w.addr off) v

/-- The values the reads of one register returned, in order. -/
def readsOf (off : Word) (tr : List Event) : List Word :=
  tr.filterMap (fun e => match e with | .rd o _ v => if o = off then some v else none | _ => none)

/-- The frames handed to the sink, in order. -/
def framesOf (tr : List Event) : List (List Byte) :=
  tr.filterMap (fun e => match e with | .send _ f _ => some f | _ => none)

/-- The words the producer pushed, in order. -/
def pushesOf (tr : List Event) : List Word :=
  tr.filterMap (fun e => match e with | .push w => some w | _ => none)

/-- The words popped so far: what the reads of DATA returned. -/
def popped (s : State) : List Word := readsOf s.cfg.dataOff s.trace

/-- The frames sent so far. -/
def sent (s : State) : List (List Byte) := framesOf s.trace

/-! ### The transition table -/

/-- INIT succeeds: the configuration is valid, both offsets are inside the window, and both opens are answered OK
(45_acquisition_loop.md rule R180). -/
def initSucceeds (s : State) : Bool :=
  (destOf s.cfg).isSome && offsetsInside s.cfg s.cfg.span && (riCause s.riAnswer).isNone && (txCause s.txAnswer).isNone

/-- The rows of 45_acquisition_loop.md rule R181 that are steps of the sequencer. -/
def sequencerRow (s t : State) : Prop :=
  match s.ph with
  | .init => t.ph = if initSucceeds s then .poll else .failed
  | .poll => t.ph = (if wordAvailable t.occLast then .pop else .poll) ∧
      (s.source = .fifo → t.occLast = BitVec.ofNat 32 s.q.length)
  | .pop => s.idx < s.cfg.n ∧ t.ph = (if s.idx = s.cfg.n - 1 then .pack else .poll)
  | .pack => t.ph = .send
  | .send => t.ph = .adv
  | .adv => t.ph = .poll
  | .failed => False
  | .halted => False

/-- The row of the table a step takes, by whose turn it is; a push or another caller's access moves no phase. -/
def tableRow (s t : State) : Prop :=
  match s.agenda.head? with
  | none => sequencerRow s t
  | some .seq => sequencerRow s t
  | some .kill => s.ph.terminal = false ∧ t.ph = .halted
  | some (.push _) => t.ph = s.ph
  | some (.access _) => t.ph = s.ph

/-! ### The invariants -/

/-- The phases in which all the words of a frame are collected (10_state.md rule R33). -/
def Phase.building : Phase → Bool
  | .pack | .send | .adv => true
  | .init | .poll | .pop | .failed | .halted => false

/-- How many words of the current cycle `WBUF` holds: `IDX` of them while they are collected, then all `N`. -/
def filled (s : State) : Nat := if s.ph.building then s.cfg.n else s.idx

/-- The invariant of 10_state.md rules R17, R18, R31 and R33. -/
structure LoopInv (s : State) : Prop where
  /-- `N >= 1` (R2). -/
  oneWord : 1 ≤ s.cfg.n
  /-- `DATA_OFF != OCC_OFF` (R2). -/
  offsets : s.cfg.occOff ≠ s.cfg.dataOff
  /-- An open window is the configured one and holds both offsets (R17). -/
  window : ∀ w, s.win = some w → w = Window.mk s.cfg.base s.cfg.span ∧ offsetsInside s.cfg s.cfg.span = true
  /-- An open sink is the configured destination (R18). -/
  sinkDest : ∀ d, s.txh = some d → destOf s.cfg = some d
  /-- While streaming, both handles are open and `IDX < N` (R33). -/
  streaming : s.ph.streaming = true → s.win ≠ none ∧ s.txh ≠ none ∧ s.idx < s.cfg.n
  /-- While the frame is built and sent, `IDX == 0` (R33). -/
  index : s.ph.building = true → s.idx = 0
  /-- While streaming, `WBUF` holds this cycle's words in pop order (R33). -/
  collected : s.ph.streaming = true → filled s ≤ (popped s).length ∧
    ∀ j, j < filled s → cellAt s.wbuf j = (popped s)[(popped s).length - filled s + j]?
  /-- While the frame is sent, `FB == BUILD_FRAME(SEQ, WBUF)` (R33). -/
  packed : s.ph = .send ∨ s.ph = .adv → ∀ j, j < frameLen s.cfg → cellAt s.fb j = (frameOf s.seq s.words)[j]?
  /-- No register that holds no value has been read (R31). -/
  written : s.unwr = false

/-- Frames and counter (10_state.md rule R34, 45_acquisition_loop.md rule R198): the j-th frame sent is BUILD_FRAME of
the counter `SEQ_INIT + j` and of the j-th group of `N` words popped. -/
structure FrameStream (s : State) : Prop where
  /-- Before INIT nothing has been read and nothing sent (R242). -/
  fresh : s.ph = .init → popped s = [] ∧ sent s = []
  /-- In phase `ADV` the frame of this cycle has been sent. -/
  advSent : s.ph = .adv → 1 ≤ (sent s).length
  /-- The counter is `SEQ_INIT` plus the cycles completed (R34). -/
  counter : s.ph.streaming = true →
    s.seq = s.cfg.seqInit + BitVec.ofNat 32 ((sent s).length - if s.ph = .adv then 1 else 0)
  /-- Every completed cycle popped `N` words, the current one `filled` of them (R34, R126). -/
  count : s.ph.streaming = true →
    (popped s).length = s.cfg.n * ((sent s).length - if s.ph = .adv then 1 else 0) + filled s
  /-- No frame was sent without its words (R126). -/
  enough : s.cfg.n * (sent s).length ≤ (popped s).length
  /-- What each frame is (R34, R36, R198). -/
  frames : ∀ j f, (sent s)[j]? = some f →
    f = frameOf (s.cfg.seqInit + BitVec.ofNat 32 j) (((popped s).drop (s.cfg.n * j)).take s.cfg.n)

/-- Sample order (10_state.md rule R36): while nothing overflowed and nothing was read from an empty queue, the words
popped, then those still queued, are the initial contents followed by the pushed words. -/
def SampleFlow (q0 : List Word) (s : State) : Prop :=
  s.ovf = false → s.undf = false → q0 ++ pushesOf s.trace = popped s ++ s.q

/-- Poll-then-pop safety (10_state.md rule R35): while nothing overflowed, nothing was read from an empty queue, and
in phase `POP` a word is there. -/
structure PopSafe (s : State) : Prop where
  fifo : s.source = .fifo
  depth : s.cfg.depth < 2 ^ 32
  queue : s.q.length ≤ s.cfg.depth
  safe : s.ovf = false → s.undf = false ∧ (s.ph = .pop → s.q ≠ [])

/-- Both buffers are in canonical form. -/
def CellsOk (s : State) : Prop := cellsWf s.wbuf = true ∧ cellsWf s.fb = true

end Sys2Proof.Machine
end

