-- ==== Sys2Proof/Certificates/Slice0/Obligations.lean ====
section
/-!
DEFINITION. The statements for the provers, each with the rules of spec/ it formalises. A statement whose conclusion
is `exec i s = .next …` is also the statement that the operation completes.
-/
open Sys2Proof Sys2Proof.Machine

/-! ## Formats and selection (30_encoding.md) -/

/-- R70, R79, R80: decoding the encoding of any well-formed operation gives it back, whatever follows it; the
operations of the formats with no pattern have no encoding. -/
def Obligations.DecodeEncodeAgree : Prop := ∀ i : Instr, Sys2Proof.Laws.Encoding.Statement i

/-- R70, R79, R81 and 95_test_vectors.md 2.1: words written out from the tables decode to the operation they stand
for. The window has 16 registers, as in the vectors. -/
def Obligations.SpecWordsDecode : Prop :=
  decodeTableWord 40 0x000000007 = some .rdOcc ∧ decodeTableWord 40 0x000000008 = some .rdData ∧
  decodeTableWord 40 0x000000000 = some (.rdUndef 0) ∧ decodeTableWord 40 0x000000009 = some (.rdUndef 9) ∧
  decodeTableWord 40 0x000000010 = some (.rdOob 16) ∧ decodeTableWord 40 0x0FFFFFFFF = some (.rdOob 0xFFFFFFFF) ∧
  decodeTableWord 40 0x100000007 = some (.wr 7 0) ∧
  decodeTableWord 8 0 = some .init ∧ decodeTableWord 8 1 = some .poll ∧ decodeTableWord 8 2 = some .pop ∧
  decodeTableWord 8 3 = some .buildFrame ∧ decodeTableWord 8 4 = some .send ∧ decodeTableWord 8 5 = some .adv ∧
  decodeTableWord 8 6 = none ∧ decodeTableWord 8 7 = none

/-- R70, R79, R81: what decodes is well-formed, and the bytes taken are its encoding: every word has one meaning. -/
def Obligations.DecodedIsWellFormedAndReencodes : Prop :=
  ∀ (c : Config) (f : Format) (bytes rest : List Byte) (i : Instr), decode c f bytes = .ok (i, rest) →
    i.wf c = true ∧ ∃ enc, encode c i = some (f, enc) ∧ bytes = enc ++ rest

/-- R70: the descriptor's fields, the selection by the first matching row, and that with both offsets inside the
window and apart from each other no two rows match one descriptor. A write is followed by its VALUE (R110). That the
bytes follow least significant first is the model's layout (assumption 11). -/
def Obligations.DescriptorSelectsByFirstMatchingRow : Prop :=
  ∀ (c : Config) (k : Bool) (off value : Word) (rest : List Byte),
    (descriptor k off).extractLsb' 0 32 = off ∧ (descriptor k off).getLsbD 32 = k ∧
    decode c .reg (descriptorBytes (descriptor k off) ++ (bytesOfWord value ++ rest)) =
      (if k = true then .ok (.wr off value, rest)
      else if c.span ≤ off.toNat then .ok (.rdOob off, bytesOfWord value ++ rest)
      else if off = c.occOff then .ok (.rdOcc, bytesOfWord value ++ rest)
      else if off = c.dataOff then .ok (.rdData, bytesOfWord value ++ rest)
      else .ok (.rdUndef off, bytesOfWord value ++ rest)) ∧
    (offsetsInside c c.span = true → c.occOff ≠ c.dataOff →
      List.Pairwise (fun p q : Prop => ¬ (p ∧ q))
        [k = true, k = false ∧ c.span ≤ off.toNat, k = false ∧ off = c.occOff, k = false ∧ off = c.dataOff,
          k = false ∧ off.toNat < c.span ∧ off ≠ c.occOff ∧ off ≠ c.dataOff])

/-- R79, R80: the label of each phase, and the operation each label selects; none for labels 6 and 7. That a label
stands in one byte is the model's layout (assumption 11). -/
def Obligations.PhaseLabelsSelectTheStep : Prop :=
  (phaseLabel .init = 0 ∧ phaseLabel .poll = 1 ∧ phaseLabel .pop = 2 ∧ phaseLabel .pack = 3 ∧
    phaseLabel .send = 4 ∧ phaseLabel .adv = 5 ∧ phaseLabel .failed = 6 ∧ phaseLabel .halted = 7) ∧
  ∀ (c : Config) (rest : List Byte),
    decode c .phase (0 :: rest) = .ok (.init, rest) ∧ decode c .phase (1 :: rest) = .ok (.poll, rest) ∧
    decode c .phase (2 :: rest) = .ok (.pop, rest) ∧ decode c .phase (3 :: rest) = .ok (.buildFrame, rest) ∧
    decode c .phase (4 :: rest) = .ok (.send, rest) ∧ decode c .phase (5 :: rest) = .ok (.adv, rest) ∧
    decode c .phase (6 :: rest) = .error .noOperation ∧ decode c .phase (7 :: rest) = .error .noOperation

/-! ## The step -/

/-- R11, R181, R196: a step runs the operation that is decoded or listed, in the state with that turn taken off the
agenda; the agenda is the model's own (assumption 9). A call of the read contract by another caller (assumption 10) is
decoded under the span that is in force (R70, assumption 32); it is refused where it would read OCC or DATA, which has
one consumer (R228), and where its bytes select no operation (R81, assumption 18). -/
def Obligations.StepRunsTheDecodedOperation : Prop :=
  ∀ (s : State) (i : Instr) (r : List Turn) (rest : List Byte),
    ((s.agenda = [] ∧ r = [] ∨ s.agenda = .seq :: r) →
      decode s.cfg .phase (phaseBytes s.ph) = .ok (i, rest) → step s = exec i { s with agenda := r }) ∧
    (∀ w, s.agenda = .push w :: r → step s = exec (.push w) { s with agenda := r }) ∧
    (s.agenda = .kill :: r → step s = exec .kill { s with agenda := r }) ∧
    (∀ bytes, s.agenda = .access bytes :: r → decode (busCfg s) .reg bytes = .ok (i, rest) →
      step s = if i = .rdOcc ∨ i = .rdData then .refused .secondConsumer else exec i { s with agenda := r }) ∧
    (∀ bytes e, s.agenda = .access bytes :: r → decode (busCfg s) .reg bytes = .error e →
      step s = .refused (.undecodable e))

/-- R85, R181, R196: the turn the pseudo-operations are made of is the system's step, for every state. -/
def Obligations.TurnsAreSteps : Prop := ∀ s : State, step s = turn s

/-- R181: every step of the system moves `PH` along a row of the table, under that row's condition. Whose turn it is
stands in the model's own agenda (assumption 9); that a call by another caller, which the model lets an agenda list
(R109, assumption 10), moves no phase is the model's clause. -/
def Obligations.PhaseMovesAlongTheTable : Prop :=
  ∀ s t : State, step s = .next t → tableRow s t

/-- R182: from STREAMING a step leads to STREAMING, or to `HALTED` by the host's KILL; no exit event appears. And the
step does not fail: in every state that meets the invariant of R33 it answers a next state, whatever the counter, the
queue and the sink's answers are, but for the call by another caller that assumption 10 lets an agenda hold. -/
def Obligations.StreamingHasNoProgrammedExit : Prop :=
  (∀ s t : State, s.ph.streaming = true → step s = .next t →
    (t.ph.streaming = true ∨ (t.ph = .halted ∧ s.agenda.head? = some .kill)) ∧
    (∀ n, Event.exit n ∈ t.trace → Event.exit n ∈ s.trace)) ∧
  ∀ s : State, LoopInv s → s.ph.streaming = true → (∀ bytes, s.agenda.head? ≠ some (.access bytes)) →
    ∃ t, step s = .next t

/-- R228, R254, R196: the words of the FIFO have one consumer: whatever turn a step takes, no value is read through
DATA but by the sequencer's POP, one word at a time. -/
def Obligations.OnlyTheSequencerPops : Prop :=
  ∀ s t : State, s.cfg.occOff ≠ s.cfg.dataOff → step s = .next t →
    popped t = popped s ∨
      (s.ph = .pop ∧ (s.agenda.head? = none ∨ s.agenda.head? = some .seq) ∧ ∃ v, popped t = popped s ++ [v])

/-- R181, R9, R216: in `FAILED` and `HALTED` the sequencer has no step. The stop's name is the model's. -/
def Obligations.TerminalPhasesHaveNoStep : Prop :=
  ∀ (s : State) (r : List Turn), s.ph.terminal = true → (s.agenda = [] ∨ s.agenda = .seq :: r) →
    step s = .fault (.runEnded s.ph)

/-- R83, R11, R181: an operation of the sequencer outside its phase is refused by name, and so is an open that has
already been made. The name is the model's. -/
def Obligations.OperationsOutsideTheirPhaseAreRefused : Prop :=
  ∀ (base span status k : Nat) (d : Dest) (c x : Word) (cause : Cause) (s : State),
    (s.ph ≠ .init → exec .init s = .refused (.notEnabled s.ph) ∧
      exec (.riOpen base span) s = .refused (.notEnabled s.ph) ∧
      exec (.txOpen d) s = .refused (.notEnabled s.ph) ∧
      exec (.fail cause status) s = .refused (.notEnabled s.ph)) ∧
    (s.ph ≠ .poll → exec .poll s = .refused (.notEnabled s.ph) ∧ exec .nextWord s = .refused (.notEnabled s.ph) ∧
      exec .collect s = .refused (.notEnabled s.ph) ∧ exec .cycle s = .refused (.notEnabled s.ph)) ∧
    (s.ph ≠ .pop → exec .pop s = .refused (.notEnabled s.ph)) ∧
    (s.ph ≠ .pack → exec .buildFrame s = .refused (.notEnabled s.ph) ∧
      exec (.packCtr c) s = .refused (.notEnabled s.ph) ∧ exec (.packIq k x) s = .refused (.notEnabled s.ph)) ∧
    (s.ph ≠ .send → exec .send s = .refused (.notEnabled s.ph)) ∧
    (s.ph ≠ .adv → exec .adv s = .refused (.notEnabled s.ph)) ∧
    (s.win ≠ none → exec (.riOpen base span) s = .refused (.notEnabled s.ph)) ∧
    (s.win = none ∨ s.txh ≠ none → exec (.txOpen d) s = .refused (.notEnabled s.ph))

/-- R103, R109, R124, R144: what an operation stops with where it is given no open handle, or an index or an offset
its rule does not take (assumption 18); and no register is read after `EXIT` or KILL, which no event follows (R9,
assumption 19). The names are the model's. -/
def Obligations.MissingHandlesAndBadIndicesStop : Prop :=
  ∀ (off x : Word) (k : Nat) (s : State),
    (s.win = none → exec .rdOcc s = .fault .windowNotOpen ∧ exec .rdData s = .fault .windowNotOpen ∧
      exec (.rdOob off) s = .fault .windowNotOpen ∧ (s.ph = .poll → exec .poll s = .fault .windowNotOpen) ∧
      (s.ph = .pop → exec .pop s = .fault .windowNotOpen)) ∧
    (s.win ≠ none → s.ph.terminal = true →
      exec .rdOcc s = .fault (.runEnded s.ph) ∧ exec .rdData s = .fault (.runEnded s.ph)) ∧
    (s.ph = .send → s.txh = none → exec .send s = .fault .sinkNotOpen) ∧
    (s.ph = .pop → s.win ≠ none → s.cfg.n ≤ s.idx → exec .pop s = .fault (.indexOutOfRange s.idx)) ∧
    (s.ph = .pack → s.cfg.n ≤ k → exec (.packIq k x) s = .fault (.indexOutOfRange k)) ∧
    (∀ w, s.win = some w → off.toNat < w.span → exec (.rdOob off) s = .refused .badOperand)

/-! ## Register Interface (41_register_interface.md) -/

/-- R100, R101, R102: the construction-time check, then the platform's answer; `WIN` is written on success alone. What
the caller is given stands in the model's field `answer` (assumption 12); that a failure ends the run is said of INIT,
in `InitOpensThenStreamsOrFails`. -/
def Obligations.RiOpenChecksThenOpens : Prop :=
  ∀ (base span : Nat) (s : State), s.ph = .init → s.win = none →
    (¬ (s.cfg.occOff.toNat < span ∧ s.cfg.dataOff.toNat < span) →
      exec (.riOpen base span) s = .next { s with
        answer := .error .boundsAtOpen
        trace := s.trace ++ [.openRi base span (some .boundsAtOpen)] }) ∧
    (s.cfg.occOff.toNat < span ∧ s.cfg.dataOff.toNat < span →
      (∀ c, riCause s.riAnswer = some c →
        exec (.riOpen base span) s = .next { s with
          answer := .error c, trace := s.trace ++ [.openRi base span (some c)] }) ∧
      (s.riAnswer = .ok →
        exec (.riOpen base span) s = .next { s with
          win := some (Window.mk base span)
          answer := .opened, trace := s.trace ++ [.openRi base span none] }))

/-- R104, R25, R42: the value is `len(Q)`, the access is at `BASE + 4*OCC_OFF`, and nothing else changes. An injected
source (R128) is the model's script (assumption 13): the value is its next one, and past its end one of which nothing
is said, the script staying as it is. After `EXIT` or KILL nothing is read (R9); the value stands in the field
`answer` (assumption 12). -/
def Obligations.OccReadReturnsTheQueueLength : Prop :=
  ∀ (w : Window) (s : State), s.win = some w → s.ph.terminal = false →
    ∃ t v, exec .rdOcc s = .next t ∧
      (s.source = .fifo → v = BitVec.ofNat 32 s.q.length ∧ t.source = s.source ∧ t.draws = s.draws) ∧
      (∀ x occ data, s.source = .script (x :: occ) data →
        v = x ∧ t.source = .script occ data ∧ t.draws = s.draws) ∧
      (∀ data, s.source = .script [] data → t.source = s.source) ∧
      t = { s with
        source := t.source
        draws := t.draws
        answer := .value v
        trace := s.trace ++ [.rd s.cfg.occOff (w.base + 4 * s.cfg.occOff.toNat) v] }

/-- R106, R28, R42: the value is the head of the queue, which is popped; from an empty queue `undf` is set, the value
is free and the queue stays empty. An injected source (R128) is the model's script (assumption 13): the value is its
next one, and past its end one of which nothing is said, and `Q` and `undf` are left alone. After `EXIT` or KILL
nothing is read (R9); the value stands in the field `answer` (assumption 12). -/
def Obligations.DataReadPopsTheHead : Prop :=
  ∀ (w : Window) (s : State), s.win = some w → s.ph.terminal = false →
    ∃ t v, exec .rdData s = .next t ∧
      (s.source = .fifo → t.source = s.source ∧
        (∀ x rest, s.q = x :: rest → v = x ∧ t.q = rest ∧ t.undf = s.undf ∧ t.draws = s.draws) ∧
        (s.q = [] → t.q = [] ∧ t.undf = true)) ∧
      (∀ occ x data, s.source = .script occ (x :: data) →
        v = x ∧ t.source = .script occ data ∧ t.q = s.q ∧ t.undf = s.undf ∧ t.draws = s.draws) ∧
      (∀ occ, s.source = .script occ [] → t.source = s.source ∧ t.q = s.q ∧ t.undf = s.undf) ∧
      t = { s with
        q := t.q
        undf := t.undf
        source := t.source
        draws := t.draws
        answer := .value v
        trace := s.trace ++ [.rd s.cfg.dataOff (w.base + 4 * s.cfg.dataOff.toNat) v] }

/-- R108, R110: a read of an undefined register and every write are refused, by name. -/
def Obligations.UndefinedReadsAndWritesAreRefused : Prop :=
  ∀ (off value : Word) (s : State),
    exec (.rdUndef off) s = .refused (.undefinedRegister off) ∧
    exec (.wr off value) s = .refused (.registerWrite off value)

/-- R109: BoundsError(BOUNDS_AT_READ, OFF) to the caller; no bus access, no event, no state change. That the error
stands in the field `answer` is the model's (assumption 12). -/
def Obligations.OutOfWindowReadRaisesBoundsError : Prop :=
  ∀ (off : Word) (w : Window) (s : State), s.win = some w → w.span ≤ off.toNat →
    exec (.rdOob off) s = .next { s with answer := .error (.boundsAtRead off) }

/-- R6, R42, R105, R107: whatever operation runs, the trace only grows, and every register read it adds is of OCC or
of DATA, at the byte address R42 gives in the window that is open. -/
def Obligations.EveryReadIsOfOccOrData : Prop :=
  ∀ (i : Instr) (s t : State), exec i s = .next t →
    ∃ new, t.trace = s.trace ++ new ∧ ∀ off addr v, Event.rd off addr v ∈ new →
      (off = s.cfg.occOff ∨ off = s.cfg.dataOff) ∧
      ∃ w, s.win = some w ∧ addr = w.base + 4 * off.toNat

/-! ## Fifo Reader (42_fifo_reader.md) -/

/-- R105, R107, R121, R124: the reads are made by the sequencer, one in each step: POLL is one RD_OCC with the latch and
the next phase, POP is one RD_DATA with the store, the index and the next phase, whatever serves the read. -/
def Obligations.PollAndPopAreOneReadEach : Prop :=
  ∀ (w : Window) (s : State), s.win = some w →
    (s.ph = .poll → ∃ m v, exec .rdOcc s = .next m ∧ m.answer = .value v ∧
      exec .poll s = .next { m with occLast := v, occHeld := true, ph := if v = 0 then .poll else .pop }) ∧
    (s.ph = .pop → s.idx < s.cfg.n → ∃ m v, exec .rdData s = .next m ∧ m.answer = .value v ∧
      exec .pop s = .next { m with
        wbuf := putCell s.wbuf s.idx v
        idx := if s.idx = s.cfg.n - 1 then 0 else s.idx + 1
        ph := if s.idx = s.cfg.n - 1 then .pack else .poll })

/-- R121: one read of OCC, the latch, and the next phase by the test of all 32 bits. The value read also stands in the
model's field `answer` (assumption 12). -/
def Obligations.PollReadsOnceAndDecides : Prop :=
  ∀ (w : Window) (s : State) (v : Word), s.ph = .poll → s.win = some w → s.source = .fifo →
    v = BitVec.ofNat 32 s.q.length →
    exec .poll s = .next { s with
      occLast := v
      occHeld := true
      ph := if v = 0 then .poll else .pop
      answer := .value v
      trace := s.trace ++ [rdEvent w s.cfg.occOff v] }

/-- R121, R128: the same against an injected source: any non-zero value leads to `POP`, one word being read. -/
def Obligations.PollDecidesOnAnyInjectedAnswer : Prop :=
  ∀ (w : Window) (s : State) (v : Word) (occ data : List Word), s.ph = .poll → s.win = some w →
    s.source = .script (v :: occ) data →
    exec .poll s = .next { s with
      source := .script occ data
      occLast := v
      occHeld := true
      ph := if v = 0 then .poll else .pop
      answer := .value v
      trace := s.trace ++ [rdEvent w s.cfg.occOff v] }

/-- R124, R125, R28: the word read goes to `WBUF[IDX]`, whole; `IDX` and `PH` move by the test `IDX == N - 1`. The
word is the head of the queue, which is popped; from an empty queue, which R35 excludes while nothing overflowed, it is
a free one. Against an injected source (R128), which is the model's script (assumption 13), it is the script's next
answer, past its end one of which nothing is said, and `Q` and `undf` are left alone. -/
def Obligations.PopStoresTheWord : Prop :=
  ∀ (w : Window) (s : State), s.ph = .pop → s.win = some w → s.idx < s.cfg.n →
    ∃ t v, exec .pop s = .next t ∧ cellAt t.wbuf s.idx = some v ∧
      (∀ j, j ≠ s.idx → cellAt t.wbuf j = cellAt s.wbuf j) ∧
      (s.idx = s.cfg.n - 1 → t.idx = 0 ∧ t.ph = .pack) ∧
      (s.idx ≠ s.cfg.n - 1 → t.idx = s.idx + 1 ∧ t.ph = .poll) ∧
      (s.source = .fifo → t.source = s.source ∧
        (∀ x rest, s.q = x :: rest → v = x ∧ t.q = rest ∧ t.undf = s.undf ∧ t.draws = s.draws) ∧
        (s.q = [] → t.q = [] ∧ t.undf = true)) ∧
      (∀ occ x data, s.source = .script occ (x :: data) →
        v = x ∧ t.source = .script occ data ∧ t.q = s.q ∧ t.undf = s.undf ∧ t.draws = s.draws) ∧
      (∀ occ, s.source = .script occ [] → t.source = s.source ∧ t.q = s.q ∧ t.undf = s.undf) ∧
      t = { s with
        q := t.q
        undf := t.undf
        source := t.source
        draws := t.draws
        wbuf := t.wbuf
        idx := t.idx
        ph := t.ph
        answer := .value v
        trace := s.trace ++ [rdEvent w s.cfg.dataOff v] }

/-- R122, R127: against a source that reports 0 for k polls and then a non-zero value, exactly k+1 reads of OCC and
then one of DATA, whose value is the result; POP stores it and moves `IDX` and `PH` (R124), and nothing else changes.
The source is the injected one of R128, in the model's form of a script (assumption 13); the result stands in the
model's field `answer` (assumption 12). -/
def Obligations.NextWordReturnsAfterTheFirstNonZeroPoll : Prop :=
  ∀ (w : Window) (s : State) (k : Nat) (v d : Word) (occ data : List Word),
    s.ph = .poll → s.win = some w → s.agenda = [] → s.idx < s.cfg.n → v ≠ 0 →
    s.source = .script (List.replicate k 0 ++ v :: occ) (d :: data) →
    ∃ t, exec .nextWord s = .next t ∧ cellAt t.wbuf s.idx = some d ∧
      (∀ j, j ≠ s.idx → cellAt t.wbuf j = cellAt s.wbuf j) ∧
      t = { s with
        source := .script occ data
        wbuf := t.wbuf
        idx := if s.idx = s.cfg.n - 1 then 0 else s.idx + 1
        ph := if s.idx = s.cfg.n - 1 then .pack else .poll
        occLast := v
        occHeld := true
        answer := .value d
        trace := s.trace ++ List.replicate k (rdEvent w s.cfg.occOff 0) ++
          [rdEvent w s.cfg.occOff v, rdEvent w s.cfg.dataOff d] }

/-- R122, R125, R127: from a FIFO that holds words, with no other agent moving: one read of OCC, which reads how many
there are, and one of DATA; the result is the head of the queue, which is popped; POP stores it and moves `IDX` and `PH`
(R124), and nothing else changes. -/
def Obligations.NextWordTakesTheHeadOfTheQueue : Prop :=
  ∀ (w : Window) (s : State) (x : Word) (rest : List Word),
    s.ph = .poll → s.win = some w → s.source = .fifo → s.agenda = [] → s.idx < s.cfg.n → s.q = x :: rest →
    s.q.length < 2 ^ 32 →
    ∃ t, exec .nextWord s = .next t ∧ cellAt t.wbuf s.idx = some x ∧
      (∀ j, j ≠ s.idx → cellAt t.wbuf j = cellAt s.wbuf j) ∧
      t = { s with
        q := rest
        wbuf := t.wbuf
        idx := if s.idx = s.cfg.n - 1 then 0 else s.idx + 1
        ph := if s.idx = s.cfg.n - 1 then .pack else .poll
        occLast := BitVec.ofNat 32 s.q.length
        occHeld := true
        answer := .value x
        trace := s.trace ++
          [rdEvent w s.cfg.occOff (BitVec.ofNat 32 s.q.length), rdEvent w s.cfg.dataOff x] }

/-- R127: NEXT_WORD "returns only when a word has been read", whatever the other agents do and whatever serves the
reads: its result is the one value read through DATA, or it has not returned, which the model shows by the answer
`waiting` (assumption 14). -/
def Obligations.NextWordReturnsOnlyAWordRead : Prop :=
  ∀ s t : State, s.cfg.occOff ≠ s.cfg.dataOff → exec .nextWord s = .next t →
    t.answer = .waiting ∨ ∃ v, t.answer = .value v ∧ popped t = popped s ++ [v]

/-- R122, R123, R194: with the FIFO empty, k polls read 0, the producer pushes, the next poll reads 1, and the pushed
word is the one popped; nothing else changes. -/
def Obligations.NextWordWaitsForTheProducer : Prop :=
  ∀ (w : Window) (s : State) (k : Nat) (x : Word),
    s.ph = .poll → s.win = some w → s.source = .fifo → s.q = [] → s.idx < s.cfg.n → 1 ≤ s.cfg.depth →
    s.agenda = List.replicate k .seq ++ [.push x] →
    ∃ t, exec .nextWord s = .next t ∧ cellAt t.wbuf s.idx = some x ∧
      (∀ j, j ≠ s.idx → cellAt t.wbuf j = cellAt s.wbuf j) ∧
      t = { s with
        agenda := []
        wbuf := t.wbuf
        idx := if s.idx = s.cfg.n - 1 then 0 else s.idx + 1
        ph := if s.idx = s.cfg.n - 1 then .pack else .poll
        occLast := 1
        occHeld := true
        answer := .value x
        trace := s.trace ++ List.replicate k (rdEvent w s.cfg.occOff 0) ++
          [.push x, rdEvent w s.cfg.occOff 1, rdEvent w s.cfg.dataOff x] }

/-- R123, R205: with the FIFO empty and no push to come, POLL reads 0 and stays in `POLL`, the step is that POLL, and
NEXT_WORD, COLLECT and CYCLE have not returned (the answer `waiting` is the model's, assumption 14): the state left is
one where the same holds again. -/
def Obligations.EmptyQueueIsPolledForEver : Prop :=
  ∀ (w : Window) (s : State), s.ph = .poll → s.win = some w → s.source = .fifo → s.q = [] → s.agenda = [] →
    ∃ t, exec .poll s = .next t ∧ step s = .next t ∧
      exec .nextWord s = .next { t with answer := .waiting } ∧
      (s.idx < s.cfg.n → exec .collect s = .next { t with answer := .waiting } ∧
        exec .cycle s = .next { t with answer := .waiting }) ∧
      t = { s with
        occLast := 0, occHeld := true, answer := .value 0, trace := s.trace ++ [rdEvent w s.cfg.occOff 0] }

/-! ## Frame Assembler (43_frame_assembler.md) -/

/-- R142: bytes 0 to 3 are the counter, little-endian; no other byte and nothing else changes. The first four bytes of
every frame are those of its counter. -/
def Obligations.PackCtrWritesTheCounter : Prop :=
  ∀ (c : Word) (s : State), s.ph = .pack →
    (∃ t, exec (.packCtr c) s = .next t ∧
      cellAt t.fb 0 = some (c.extractLsb' 0 8) ∧ cellAt t.fb 1 = some (c.extractLsb' 8 8) ∧
      cellAt t.fb 2 = some (c.extractLsb' 16 8) ∧ cellAt t.fb 3 = some (c.extractLsb' 24 8) ∧
      (∀ j, 4 ≤ j → cellAt t.fb j = cellAt s.fb j) ∧ t = { s with fb := t.fb }) ∧
    ∀ ws : List Word, (frameOf c ws).take 4 =
      [c.extractLsb' 0 8, c.extractLsb' 8 8, c.extractLsb' 16 8, c.extractLsb' 24 8]

/-- R144: bytes 4+4i to 7+4i are I then Q, each little-endian; no other byte and nothing else changes. -/
def Obligations.PackIqWritesTheSamplePair : Prop :=
  ∀ (i : Nat) (w : Word) (s : State), s.ph = .pack → i < s.cfg.n →
    ∃ t, exec (.packIq i w) s = .next t ∧
      cellAt t.fb (4 + 4 * i) = some ((w.extractLsb' 0 16).extractLsb' 0 8) ∧
      cellAt t.fb (4 + 4 * i + 1) = some ((w.extractLsb' 0 16).extractLsb' 8 8) ∧
      cellAt t.fb (4 + 4 * i + 2) = some ((w.extractLsb' 16 16).extractLsb' 0 8) ∧
      cellAt t.fb (4 + 4 * i + 3) = some ((w.extractLsb' 16 16).extractLsb' 8 8) ∧
      (∀ j, j < 4 + 4 * i ∨ 8 + 4 * i ≤ j → cellAt t.fb j = cellAt s.fb j) ∧ t = { s with fb := t.fb }

/-- R146: every byte of `FB` becomes that of BUILD_FRAME(SEQ, WBUF), and `PH` becomes `SEND`; nothing else changes, but
that a read of an entry that holds no value (R31) is recorded in `unwr` and uses up a draw, which is the model's form
(assumptions 3 and 4). What BUILD_FRAME is, for any number of words, is the second part. -/
def Obligations.BuildFrameWritesTheWholeFrame : Prop :=
  (∀ s : State, s.ph = .pack →
    ∃ t, exec .buildFrame s = .next t ∧
      (∀ j, j < frameLen s.cfg → cellAt t.fb j = (frameOf s.seq s.words)[j]?) ∧
      (∀ j, frameLen s.cfg ≤ j → cellAt t.fb j = cellAt s.fb j) ∧
      t = { s with
        fb := t.fb
        ph := .send
        unwr := s.unwr || !s.wordsHeld
        draws := if s.wordsHeld then s.draws else s.draws + 1 }) ∧
  (∀ s : State, s.words.length = s.cfg.n ∧ ∀ j, j < s.cfg.n → ∀ w, cellAt s.wbuf j = some w → s.words[j]? = some w) ∧
  ∀ (c : Word) (ws : List Word), (frameOf c ws).length = 4 + 4 * ws.length ∧
    frameOf c ws = le32 c ++ ws.flatMap (fun w => le16 (w.extractLsb' 0 16) ++ le16 (w.extractLsb' 16 16))

/-- R147: the length is 4 + 4*len(words), for every counter and any words, none included; within a run it is
`FRAME_LEN`, of the frame that is built and of the one that is sent. -/
def Obligations.FrameLengthIsFixedByTheWordCount : Prop :=
  (∀ (c : Word) (ws : List Word), (frameOf c ws).length = 4 + 4 * ws.length) ∧
  (∀ c : Word, frameOf c [] = le32 c) ∧
  ∀ s : State, (frameOf s.seq s.words).length = frameLen s.cfg ∧ s.frame.length = frameLen s.cfg ∧
    frameLen s.cfg = 4 + 4 * s.cfg.n

/-- R75: the frame byte by byte, and its length, 1028 for 256 words. -/
def Obligations.FrameLayoutByteByByte : Prop :=
  ∀ (c : Word) (ws : List Word), (frameOf c ws).length = 4 + 4 * ws.length ∧
    (ws.length = 256 → (frameOf c ws).length = 1028) ∧
    (frameOf c ws)[0]? = some (c.extractLsb' 0 8) ∧ (frameOf c ws)[1]? = some (c.extractLsb' 8 8) ∧
    (frameOf c ws)[2]? = some (c.extractLsb' 16 8) ∧ (frameOf c ws)[3]? = some (c.extractLsb' 24 8) ∧
    ∀ i w, ws[i]? = some w →
      (frameOf c ws)[4 + 4 * i]? = some (w.extractLsb' 0 8) ∧
      (frameOf c ws)[5 + 4 * i]? = some (w.extractLsb' 8 8) ∧
      (frameOf c ws)[6 + 4 * i]? = some (w.extractLsb' 16 8) ∧
      (frameOf c ws)[7 + 4 * i]? = some (w.extractLsb' 24 8)

/-- R77: the receiver's arithmetic on the bytes of a frame, by their offsets, gives back the number of words, the
counter, each component and each word; and decoding undoes encoding. -/
def Obligations.ReceiverRecoversCounterAndWords : Prop :=
  ∀ (c : Word) (ws : List Word) (b : Nat → Nat), (∀ j, b j = ((frameOf c ws).getD j 0).toNat) →
    ws.length = ((frameOf c ws).length - 4) / 4 ∧
    c.toNat = b 0 + 2 ^ 8 * b 1 + 2 ^ 16 * b 2 + 2 ^ 24 * b 3 ∧
    (∀ (i : Nat) (w : Word), ws[i]? = some w →
      (w &&& 0xFFFF).toNat = b (4 + 4 * i) + 2 ^ 8 * b (5 + 4 * i) ∧
      ((w >>> 16) &&& 0xFFFF).toNat = b (6 + 4 * i) + 2 ^ 8 * b (7 + 4 * i) ∧
      w.toNat = (w &&& 0xFFFF).toNat + 2 ^ 16 * ((w >>> 16) &&& 0xFFFF).toNat) ∧
    readFrame (frameOf c ws) = some (c, ws)

/-- R55: the four bytes of a sample are those of its word, so the frame is the little-endian counter followed by the
little-endian words; a receiver that reads one word or two halves sees the same bits. -/
def Obligations.FrameIsLittleEndianWords : Prop :=
  (∀ w : Word, le16 (iPart w) ++ le16 (qPart w) = le32 w) ∧
  (∀ (c : Word) (ws : List Word), frameOf c ws = le32 c ++ ws.flatMap le32) ∧
  (∀ b0 b1 b2 b3 : Byte, (half16 b2 b3 ++ half16 b0 b1 : BitVec 32) = wordOfBytes b0 b1 b2 b3)

/-- R85, R150: PACK_CTR and the N PACK_IQ, in any order among themselves, leave what the step of phase PACK leaves. -/
def Obligations.PackingOrderIsNotObservable : Prop :=
  ∀ (s : State) (order : List Instr), s.ph = .pack → s.wordsHeld = true → cellsWf s.fb = true →
    order.Perm (.packCtr s.seq :: (List.range s.cfg.n).map (fun i => .packIq i (s.wordAt i))) →
    andThen (order.foldl (fun r i => andThen r (exec i)) (.next s)) (fun t => .next (t.goto .send)) =
      exec .buildFrame s

/-! ## Frame output (44_frame_output.md) -/

/-- R160, R161: the platform's answer; `TXH` is written on success alone. What the caller is given stands in the model's
field `answer` (assumption 12). -/
def Obligations.TxOpenOpensTheSink : Prop :=
  ∀ (d : Dest) (w : Window) (s : State), s.ph = .init → s.win = some w → s.txh = none →
    (s.txAnswer = .ok →
      exec (.txOpen d) s = .next { s with
        txh := some d, answer := .opened, trace := s.trace ++ [.openTx d none] }) ∧
    (∀ c, txCause s.txAnswer = some c →
      exec (.txOpen d) s = .next { s with
        answer := .error c, trace := s.trace ++ [.openTx d (some c)] })

/-- R162: the whole of `FB` is handed over once, a failure is reported, and `PH` becomes `ADV` whatever the sink
answered; `SEQ`, `WBUF`, `FB` and `IDX` are untouched. The list of answers to come is the model's (assumption 8), and
so is the clause on `unwr`, which records a read of a byte that holds no value (R31, assumption 4). -/
def Obligations.SendHandsOverTheFrameOnce : Prop :=
  ∀ (d : Dest) (s : State) (a : SinkAnswer) (rest : List SinkAnswer), s.ph = .send → s.txh = some d →
    s.sink = a :: rest → (∀ k, a = .short k → k < frameLen s.cfg) → frameLen s.cfg ≤ s.cfg.maxMsg →
    ∃ t, exec .send s = .next t ∧ t = { s with
      ph := .adv
      sink := rest
      trace := s.trace ++ (if a = .ok then [.send d s.frame a] else [.send d s.frame a, .reportTransient])
      unwr := s.unwr || !s.frameHeld
      draws := t.draws }

/-- R162, R255: a SEND always completes, with one message, the whole of `FB`, and an answer in the set R162 gives; a
failure is reported, `PH` becomes `ADV` whatever the answer, and nothing else of the block changes. Where the frame is
larger than `MAX_MSG` the answer is a failure. The clause on `unwr`, which records a read of a byte that holds no value
(R31), is the model's (assumption 4), and so is the list of answers to come (assumption 8). -/
def Obligations.SendAnswerIsAlwaysLegal : Prop :=
  ∀ (d : Dest) (s : State), s.ph = .send → s.txh = some d →
    ∃ t a, exec .send s = .next t ∧
      (a = .ok ∨ (∃ k, k < frameLen s.cfg ∧ a = .short k) ∨ a = .err) ∧
      (s.cfg.maxMsg < frameLen s.cfg → a ≠ .ok) ∧
      t = { s with
        ph := .adv
        sink := t.sink
        draws := t.draws
        unwr := s.unwr || !s.frameHeld
        trace := s.trace ++ (if a = .ok then [.send d s.frame a] else [.send d s.frame a, .reportTransient]) }

/-- R167: two runs that differ in the sink's answer alone differ after SEND in the trace alone. -/
def Obligations.SendAnswerReachesOnlyTheReport : Prop :=
  ∀ (s t u : State) (a b : SinkAnswer) (rest : List SinkAnswer),
    exec .send { s with sink := a :: rest } = .next t → exec .send { s with sink := b :: rest } = .next u →
    { t with trace := [] } = { u with trace := [] }

/-- R163, R188: whatever the sink answers, the frame is offered once and the next step advances the counter. -/
def Obligations.CounterAdvancesAfterEverySend : Prop :=
  ∀ (d : Dest) (s : State), s.ph = .send → s.txh = some d → s.agenda = [] →
    ∃ t u, step s = .next t ∧ step t = .next u ∧ u.ph = .poll ∧ u.seq = s.seq + 1 ∧
      sent u = sent s ++ [s.frame] ∧ u.wbuf = s.wbuf ∧ u.idx = s.idx ∧ u.q = s.q

/-! ## Acquisition Loop (45_acquisition_loop.md) -/

/-- R180: a valid configuration, both offsets inside the window and both opens answered OK lead to `POLL`, with the
counter and the index set and the status line last. Otherwise the first failure, in the order configuration, bounds,
window, sink, is the one reported; nothing after it is attempted, and the run ends in `FAILED`. That the report of a
configuration error is its usage message is the model's reading (assumption 16). -/
def Obligations.InitOpensThenStreamsOrFails : Prop :=
  ∀ s : State, s.ph = .init →
    (destOf s.cfg = none →
      exec .init s = .next { s with ph := .failed, trace := s.trace ++ [.usage, .exit 1] }) ∧
    (∀ d, destOf s.cfg = some d →
      (¬ (s.cfg.occOff.toNat < s.cfg.span ∧ s.cfg.dataOff.toNat < s.cfg.span) →
        exec .init s = .next { s with
          ph := .failed
          answer := .error .boundsAtOpen
          trace := s.trace ++ [.openRi s.cfg.base s.cfg.span (some .boundsAtOpen),
            .failureReport .boundsAtOpen, .exit s.cfg.exitFail] }) ∧
      (s.cfg.occOff.toNat < s.cfg.span ∧ s.cfg.dataOff.toNat < s.cfg.span →
        (∀ c, riCause s.riAnswer = some c →
          exec .init s = .next { s with
            ph := .failed
            answer := .error c
            trace := s.trace ++ [.openRi s.cfg.base s.cfg.span (some c), .failureReport c, .exit s.cfg.exitFail] }) ∧
        (s.riAnswer = .ok →
          (∀ c, txCause s.txAnswer = some c →
            exec .init s = .next { s with
              win := some (Window.mk s.cfg.base s.cfg.span)
              ph := .failed
              answer := .error c
              trace := s.trace ++ [.openRi s.cfg.base s.cfg.span none, .openTx d (some c),
                .failureReport c, .exit s.cfg.exitFail] }) ∧
          (s.txAnswer = .ok →
            exec .init s = .next { s with
              win := some (Window.mk s.cfg.base s.cfg.span)
              txh := some d
              seq := s.cfg.seqInit
              idx := 0
              ph := .poll
              answer := .opened
              trace := s.trace ++ [.openRi s.cfg.base s.cfg.span none, .openTx d none, .status] }))))

/-- R188: the counter goes up by 1 modulo 2^32, and `PH` becomes `POLL`; ADV is the only writer of the counter after
INIT: no operation that contains no ADV changes it, and a CYCLE, which contains one, adds at most 1. -/
def Obligations.AdvIncrementsModulo : Prop :=
  (∀ s : State, s.ph = .adv →
    exec .adv s = .next { s with seq := s.seq + 1, ph := .poll } ∧
    (s.seq + 1).toNat = (s.seq.toNat + 1) % 2 ^ 32) ∧
  ∀ (i : Instr) (s t : State), s.ph ≠ .init → exec i s = .next t →
    (i ≠ .adv → i ≠ .cycle → t.seq = s.seq) ∧ (i = .cycle → t.seq = s.seq ∨ t.seq = s.seq + 1)

/-- R190, R212: the report, `FAILED`, and the exit status; for a configuration error the report is the usage message
(assumption 16, the model's reading of R168). A status or a cause R190 and R200 do not give is refused, which is the
model's. -/
def Obligations.FailReportsAndExits : Prop :=
  ∀ (c : Cause) (status : Nat) (s : State), s.ph = .init →
    ((Instr.fail c status).wf s.cfg = true →
      exec (.fail c status) s = .next { s with
        ph := .failed
        trace := s.trace ++ [if c = .cfgInvalid then .usage else .failureReport c, .exit status] } ∧
      status ≠ 0 ∧ (c = .cfgInvalid → status = 1)) ∧
    ((Instr.fail c status).wf s.cfg = false → exec (.fail c status) s = .refused .badOperand)

/-- R192: in every phase but the terminal ones KILL sets `PH` to `HALTED` and nothing else; in those it is not
enabled, and the refusal that says so is the model's form of the stop (assumption 17). -/
def Obligations.KillHalts : Prop :=
  ∀ s : State,
    (s.ph ≠ .failed → s.ph ≠ .halted →
      exec .kill s = .next { s with ph := .halted, trace := s.trace ++ [.kill] }) ∧
    (s.ph = .failed ∨ s.ph = .halted → exec .kill s = .refused (.notEnabled s.ph))

/-- R194, R26, R27: a push appends the word; into a full queue it sets `ovf`, and the queue is then some queue of at
most `DEPTH` words, in the model's form of a draw (assumptions 3 and 5). It is enabled in every phase, and stands in the
trace (assumption 25). -/
def Obligations.PushAppendsOrOverflows : Prop :=
  ∀ (w : Word) (s : State),
    (s.q.length < s.cfg.depth →
      exec (.push w) s = .next { s with q := s.q ++ [w], trace := s.trace ++ [.push w] }) ∧
    (s.cfg.depth ≤ s.q.length → ∃ t, exec (.push w) s = .next t ∧ t.q.length ≤ s.cfg.depth ∧
      t = { s with q := t.q, ovf := true, draws := s.draws + 1, trace := s.trace ++ [.push w] })

/-- R184, R126: from a queue with `N` words and no other agent moving, COLLECT polls and pops strictly in turn, one
word a poll; the N words are the first N of the queue, in order, and nothing else changes. -/
def Obligations.CollectTakesTheNextWords : Prop :=
  ∀ (w : Window) (s : State), s.ph = .poll → s.idx = 0 → s.win = some w → s.source = .fifo → s.agenda = [] →
    1 ≤ s.cfg.n → s.cfg.n ≤ s.q.length → s.q.length < 2 ^ 32 →
    ∃ t, exec .collect s = .next t ∧
      (∀ j, j < s.cfg.n → cellAt t.wbuf j = s.q[j]?) ∧
      (∀ j, s.cfg.n ≤ j → cellAt t.wbuf j = cellAt s.wbuf j) ∧
      t = { s with
        ph := .pack
        q := s.q.drop s.cfg.n
        wbuf := t.wbuf
        occLast := t.occLast
        occHeld := true
        answer := t.answer
        trace := s.trace ++ (List.range s.cfg.n).flatMap (fun j =>
          [rdEvent w s.cfg.occOff (BitVec.ofNat 32 (s.q.length - j)), rdEvent w s.cfg.dataOff (s.q.getD j 0)]) }

/-- R186, R34: a cycle takes the next N words, sends the frame of them with the counter it began with, reports a
failure, and ends with the counter one higher; nothing else changes. -/
def Obligations.CycleSendsOneFrame : Prop :=
  ∀ (w : Window) (d : Dest) (s : State) (a : SinkAnswer) (rest : List SinkAnswer),
    s.ph = .poll → s.idx = 0 → s.win = some w → s.txh = some d → s.source = .fifo → s.agenda = [] →
    1 ≤ s.cfg.n → s.cfg.n ≤ s.q.length → s.q.length < 2 ^ 32 →
    s.sink = a :: rest → (∀ k, a = .short k → k < frameLen s.cfg) → frameLen s.cfg ≤ s.cfg.maxMsg →
    ∃ t, exec .cycle s = .next t ∧
      (∀ j, j < s.cfg.n → cellAt t.wbuf j = s.q[j]?) ∧
      (∀ j, s.cfg.n ≤ j → cellAt t.wbuf j = cellAt s.wbuf j) ∧
      (∀ j, j < frameLen s.cfg → cellAt t.fb j = (frameOf s.seq (s.q.take s.cfg.n))[j]?) ∧
      (∀ j, frameLen s.cfg ≤ j → cellAt t.fb j = cellAt s.fb j) ∧
      t = { s with
        seq := s.seq + 1
        q := s.q.drop s.cfg.n
        wbuf := t.wbuf
        fb := t.fb
        occLast := t.occLast
        occHeld := true
        sink := rest
        draws := t.draws
        answer := t.answer
        trace := s.trace ++ (List.range s.cfg.n).flatMap (fun j =>
            [rdEvent w s.cfg.occOff (BitVec.ofNat 32 (s.q.length - j)), rdEvent w s.cfg.dataOff (s.q.getD j 0)]) ++
          (if a = .ok then [.send d (frameOf s.seq (s.q.take s.cfg.n)) a]
          else [.send d (frameOf s.seq (s.q.take s.cfg.n)) a, .reportTransient]) }

/-! ## Invariants and whole-machine rules -/

/-- R33, R17, R18, R31: every step keeps the invariant of the streaming phases. -/
def Obligations.StreamingInvariantIsKept : Prop := ∀ s t : State, LoopInv s → step s = .next t → LoopInv t

/-- R34, R36, R198: every step keeps the shape of the stream: the j-th frame sent carries the counter `SEQ_INIT + j`
and the j-th group of N words popped. -/
def Obligations.FramesFollowTheStream : Prop :=
  ∀ s t : State, LoopInv s → FrameStream s → step s = .next t → FrameStream t

/-- R36, R24: no operation loses, repeats or reorders a word while nothing overflowed and nothing was read from an
empty queue. -/
def Obligations.SampleOrderIsKept : Prop :=
  ∀ (q0 : List Word) (i : Instr) (s t : State), s.cfg.occOff ≠ s.cfg.dataOff → s.source = .fifo → SampleFlow q0 s →
    exec i s = .next t → t.source = .fifo ∧ SampleFlow q0 t

/-- R35: every step keeps poll-then-pop safety. -/
def Obligations.PollThenPopIsSafe : Prop := ∀ s t : State, PopSafe s → step s = .next t → PopSafe t

/-- R30, R29, R242: the invariants hold at the start of a run, for every configuration that meets the constraints of
R2 and every initial queue that fits. -/
def Obligations.InvariantsHoldAtReset : Prop :=
  ∀ (c : Config) (q : List Word), Admissible c → q.length ≤ c.depth →
    LoopInv (State.resetWith c q) ∧ FrameStream (State.resetWith c q) ∧ SampleFlow q (State.resetWith c q) ∧
    PopSafe (State.resetWith c q) ∧ CellsOk (State.resetWith c q)

/-- R26: no operation lets the queue grow past `DEPTH`. -/
def Obligations.QueueNeverExceedsDepth : Prop :=
  ∀ (i : Instr) (s t : State), s.q.length ≤ s.cfg.depth → exec i s = .next t → t.q.length ≤ t.cfg.depth

/-- R2, R59: no operation changes the configuration. -/
def Obligations.ConfigurationNeverChanges : Prop := ∀ (i : Instr) (s t : State), exec i s = .next t → t.cfg = s.cfg

/-- R17, R18, R165: once INIT is over no operation changes the window or the destination. -/
def Obligations.HandlesAreWrittenInInitOnly : Prop :=
  ∀ (i : Instr) (s t : State), s.ph ≠ .init → exec i s = .next t → t.win = s.win ∧ t.txh = s.txh

/-- R15, R16, R31: every operation keeps both buffers in canonical form, so that equal contents are equal data. -/
def Obligations.BuffersKeepCanonicalForm : Prop :=
  ∀ (i : Instr) (s t : State), CellsOk s → exec i s = .next t → CellsOk t

/-- R30, R240, R242: what a run starts with, for any configuration and queue; and the reference values of R2. -/
def Obligations.ResetHoldsTheSpecsValues : Prop :=
  (∀ (c : Config) (q : List Word),
    (State.resetWith c q).ph = .init ∧ (State.resetWith c q).idx = 0 ∧ (State.resetWith c q).seq = c.seqInit ∧
    (State.resetWith c q).win = none ∧ (State.resetWith c q).txh = none ∧ (State.resetWith c q).q = q ∧
    (State.resetWith c q).ovf = false ∧ (State.resetWith c q).undf = false ∧
    (State.resetWith c q).occHeld = false ∧
    ∀ j, cellAt (State.resetWith c q).wbuf j = none ∧ cellAt (State.resetWith c q).fb j = none) ∧
  State.reset = State.resetWith Config.reference [] ∧
  Config.reference.n = 256 ∧ Config.reference.occOff = 7 ∧ Config.reference.dataOff = 8 ∧
  Config.reference.seqInit = 0 ∧ frameLen Config.reference = 1028
end

