-- ==== Sys2Proof/Laws/Cells.lean ====
section
/-!
SUPPORT. The laws of the sparse arrays that hold WBUF and FB: a read after a write, and the canonical form.
-/
namespace Sys2Proof.Machine

variable {α : Type}

@[simp] theorem cellAt_putCell_same (m : List (Nat × α)) (i : Nat) (v : α) : cellAt (putCell m i v) i = some v := by
  induction m with
  | nil => simp [putCell, cellAt]
  | cons e rest ih =>
    obtain ⟨j, u⟩ := e
    simp only [putCell]
    split
    · simp [cellAt]
    · split
      · simp [cellAt]
      · have : j ≠ i := by omega
        simp [cellAt, this, ih]

theorem cellAt_putCell_other (m : List (Nat × α)) {i k : Nat} (v : α) (h : k ≠ i) :
    cellAt (putCell m i v) k = cellAt m k := by
  induction m with
  | nil => simp [putCell, cellAt, Ne.symm h]
  | cons e rest ih =>
    obtain ⟨j, u⟩ := e
    simp only [putCell]
    split
    · simp [cellAt, Ne.symm h]
    · split
      · next h2 => subst h2; simp [cellAt, Ne.symm h]
      · simp only [cellAt]; split <;> simp [ih]

theorem cellAt_putCell (m : List (Nat × α)) (i k : Nat) (v : α) :
    cellAt (putCell m i v) k = if k = i then some v else cellAt m k := by
  split
  · next h => subst h; simp
  · next h => exact cellAt_putCell_other m v h

/-- What a run of writes leaves at every index: the written run, and everything else as it was. -/
theorem cellAt_putCells (vs : List α) (m : List (Nat × α)) (i k : Nat) :
    cellAt (putCells m i vs) k = if i ≤ k ∧ k < i + vs.length then vs[k - i]? else cellAt m k := by
  induction vs generalizing m i with
  | nil =>
    have : ¬ (i ≤ k ∧ k < i + ([] : List α).length) := by simp
    simp only [putCells, if_neg this]
  | cons v vs ih =>
    simp only [putCells, ih, List.length_cons, cellAt_putCell]
    by_cases h : k = i
    · subst h; simp
    · by_cases h2 : i + 1 ≤ k ∧ k < i + 1 + vs.length
      · have h3 : i ≤ k ∧ k < i + (vs.length + 1) := by omega
        have h4 : k - i = (k - (i + 1)) + 1 := by omega
        simp only [if_pos h2, if_pos h3, h4, List.getElem?_cons_succ]
      · have h3 : ¬ (i ≤ k ∧ k < i + (vs.length + 1)) := by omega
        simp only [if_neg h2, if_neg h3, if_neg h]

theorem putCells_append (m : List (Nat × α)) (i : Nat) (us vs : List α) :
    putCells m i (us ++ vs) = putCells (putCells m i us) (i + us.length) vs := by
  induction us generalizing m i with
  | nil => rfl
  | cons u us ih => simp [putCells, ih]; congr 1; omega

theorem putCell_keys (m : List (Nat × α)) (i : Nat) (v : α) :
    ∀ e ∈ putCell m i v, e.1 = i ∨ e ∈ m := by
  induction m with
  | nil => simp [putCell]
  | cons x rest ih =>
    obtain ⟨j, u⟩ := x
    intro e he
    simp only [putCell] at he
    split at he
    · rcases List.mem_cons.1 he with rfl | h
      · exact .inl rfl
      · exact .inr h
    · split at he
      · rcases List.mem_cons.1 he with rfl | h
        · exact .inl rfl
        · exact .inr (List.mem_cons_of_mem _ h)
      · rcases List.mem_cons.1 he with rfl | h
        · exact .inr List.mem_cons_self
        · rcases ih e h with h | h
          · exact .inl h
          · exact .inr (List.mem_cons_of_mem _ h)

/-- A write keeps the canonical form. -/
theorem cellsWf_putCell (m : List (Nat × α)) (i : Nat) (v : α) (h : cellsWf m = true) :
    cellsWf (putCell m i v) = true := by
  induction m with
  | nil => simp [putCell, cellsWf]
  | cons e rest ih =>
    obtain ⟨j, u⟩ := e
    simp only [cellsWf, Bool.and_eq_true, List.all_eq_true, decide_eq_true_eq] at h
    simp only [putCell]
    split
    · next h1 =>
      simp only [cellsWf, Bool.and_eq_true, List.all_eq_true, decide_eq_true_eq, List.mem_cons, forall_eq_or_imp]
      exact ⟨⟨h1, fun e he => lt_trans h1 (h.1 e he)⟩, h.1, h.2⟩
    · split
      · next h2 =>
        subst h2
        simp only [cellsWf, Bool.and_eq_true, List.all_eq_true, decide_eq_true_eq]
        exact h
      · next h1 h2 =>
        simp only [cellsWf, Bool.and_eq_true, List.all_eq_true, decide_eq_true_eq]
        refine ⟨fun e he => ?_, ih h.2⟩
        rcases putCell_keys rest i v e he with h3 | h3
        · omega
        · exact h.1 e h3

/-- A run of writes keeps the canonical form. -/
theorem cellsWf_putCells (vs : List α) (m : List (Nat × α)) (i : Nat) (h : cellsWf m = true) :
    cellsWf (putCells m i vs) = true := by
  induction vs generalizing m i with
  | nil => exact h
  | cons v vs ih => exact ih _ _ (cellsWf_putCell m i v h)

/-- An index below every listed one holds no value. -/
theorem cellAt_eq_none_of_lt (m : List (Nat × α)) (k : Nat) (h : ∀ e ∈ m, k < e.1) : cellAt m k = none := by
  induction m with
  | nil => rfl
  | cons e rest ih =>
    obtain ⟨j, u⟩ := e
    have hj : k < j := h (j, u) List.mem_cons_self
    have : j ≠ k := by omega
    simp only [cellAt, this, if_false]
    exact ih (fun e he => h e (List.mem_cons_of_mem _ he))

/-- Two arrays in canonical form that hold the same values are the same list. -/
theorem cells_ext (m m' : List (Nat × α)) (h : cellsWf m = true) (h' : cellsWf m' = true)
    (hk : ∀ k, cellAt m k = cellAt m' k) : m = m' := by
  induction m generalizing m' with
  | nil =>
    cases m' with
    | nil => rfl
    | cons e rest => have := hk e.1; simp [cellAt] at this
  | cons e rest ih =>
    cases m' with
    | nil => have := hk e.1; simp [cellAt] at this
    | cons e' rest' =>
      obtain ⟨i, u⟩ := e
      obtain ⟨j, v⟩ := e'
      simp only [cellsWf, Bool.and_eq_true, List.all_eq_true, decide_eq_true_eq] at h h'
      have hij : i = j := by
        rcases Nat.lt_trichotomy i j with hlt | heq | hgt
        · have h1 := hk i
          have h2 : cellAt ((j, v) :: rest') i = none := by
            refine cellAt_eq_none_of_lt _ _ (fun e he => ?_)
            rcases List.mem_cons.1 he with rfl | he
            · exact hlt
            · exact lt_trans hlt (h'.1 e he)
          rw [h2] at h1; simp [cellAt] at h1
        · exact heq
        · have h1 := hk j
          have h2 : cellAt ((i, u) :: rest) j = none := by
            refine cellAt_eq_none_of_lt _ _ (fun e he => ?_)
            rcases List.mem_cons.1 he with rfl | he
            · exact hgt
            · exact lt_trans hgt (h.1 e he)
          rw [h2] at h1; simp [cellAt] at h1
      subst hij
      have huv : u = v := by have := hk i; simpa [cellAt] using this
      subst huv
      refine congrArg _ (ih rest' h.2 h'.2 (fun k => ?_))
      by_cases hki : k = i
      · subst hki
        rw [cellAt_eq_none_of_lt rest k h.1, cellAt_eq_none_of_lt rest' k h'.1]
      · have := hk k
        simpa [cellAt, Ne.symm hki] using this

end Sys2Proof.Machine
end

