-- ==== Sys2Proof/Laws/State.lean ====
section
/-!
SUPPORT. One lemma per field for each named update of the state, true by unfolding the update, so that no later
proof unfolds a record.
-/
namespace Sys2Proof.Machine

@[simp] theorem State.goto_cfg (s : State) (p : Phase) : (s.goto p).cfg = s.cfg := rfl
@[simp] theorem State.goto_ph (s : State) (p : Phase) : (s.goto p).ph = p := rfl
@[simp] theorem State.goto_idx (s : State) (p : Phase) : (s.goto p).idx = s.idx := rfl
@[simp] theorem State.goto_seq (s : State) (p : Phase) : (s.goto p).seq = s.seq := rfl
@[simp] theorem State.goto_occLast (s : State) (p : Phase) : (s.goto p).occLast = s.occLast := rfl
@[simp] theorem State.goto_occHeld (s : State) (p : Phase) : (s.goto p).occHeld = s.occHeld := rfl
@[simp] theorem State.goto_wbuf (s : State) (p : Phase) : (s.goto p).wbuf = s.wbuf := rfl
@[simp] theorem State.goto_fb (s : State) (p : Phase) : (s.goto p).fb = s.fb := rfl
@[simp] theorem State.goto_win (s : State) (p : Phase) : (s.goto p).win = s.win := rfl
@[simp] theorem State.goto_txh (s : State) (p : Phase) : (s.goto p).txh = s.txh := rfl
@[simp] theorem State.goto_q (s : State) (p : Phase) : (s.goto p).q = s.q := rfl
@[simp] theorem State.goto_ovf (s : State) (p : Phase) : (s.goto p).ovf = s.ovf := rfl
@[simp] theorem State.goto_undf (s : State) (p : Phase) : (s.goto p).undf = s.undf := rfl
@[simp] theorem State.goto_unwr (s : State) (p : Phase) : (s.goto p).unwr = s.unwr := rfl
@[simp] theorem State.goto_source (s : State) (p : Phase) : (s.goto p).source = s.source := rfl
@[simp] theorem State.goto_agenda (s : State) (p : Phase) : (s.goto p).agenda = s.agenda := rfl
@[simp] theorem State.goto_riAnswer (s : State) (p : Phase) : (s.goto p).riAnswer = s.riAnswer := rfl
@[simp] theorem State.goto_txAnswer (s : State) (p : Phase) : (s.goto p).txAnswer = s.txAnswer := rfl
@[simp] theorem State.goto_sink (s : State) (p : Phase) : (s.goto p).sink = s.sink := rfl
@[simp] theorem State.goto_draws (s : State) (p : Phase) : (s.goto p).draws = s.draws := rfl
@[simp] theorem State.goto_answer (s : State) (p : Phase) : (s.goto p).answer = s.answer := rfl
@[simp] theorem State.goto_trace (s : State) (p : Phase) : (s.goto p).trace = s.trace := rfl

@[simp] theorem State.emit_cfg (s : State) (e : Event) : (s.emit e).cfg = s.cfg := rfl
@[simp] theorem State.emit_ph (s : State) (e : Event) : (s.emit e).ph = s.ph := rfl
@[simp] theorem State.emit_idx (s : State) (e : Event) : (s.emit e).idx = s.idx := rfl
@[simp] theorem State.emit_seq (s : State) (e : Event) : (s.emit e).seq = s.seq := rfl
@[simp] theorem State.emit_occLast (s : State) (e : Event) : (s.emit e).occLast = s.occLast := rfl
@[simp] theorem State.emit_occHeld (s : State) (e : Event) : (s.emit e).occHeld = s.occHeld := rfl
@[simp] theorem State.emit_wbuf (s : State) (e : Event) : (s.emit e).wbuf = s.wbuf := rfl
@[simp] theorem State.emit_fb (s : State) (e : Event) : (s.emit e).fb = s.fb := rfl
@[simp] theorem State.emit_win (s : State) (e : Event) : (s.emit e).win = s.win := rfl
@[simp] theorem State.emit_txh (s : State) (e : Event) : (s.emit e).txh = s.txh := rfl
@[simp] theorem State.emit_q (s : State) (e : Event) : (s.emit e).q = s.q := rfl
@[simp] theorem State.emit_ovf (s : State) (e : Event) : (s.emit e).ovf = s.ovf := rfl
@[simp] theorem State.emit_undf (s : State) (e : Event) : (s.emit e).undf = s.undf := rfl
@[simp] theorem State.emit_unwr (s : State) (e : Event) : (s.emit e).unwr = s.unwr := rfl
@[simp] theorem State.emit_source (s : State) (e : Event) : (s.emit e).source = s.source := rfl
@[simp] theorem State.emit_agenda (s : State) (e : Event) : (s.emit e).agenda = s.agenda := rfl
@[simp] theorem State.emit_riAnswer (s : State) (e : Event) : (s.emit e).riAnswer = s.riAnswer := rfl
@[simp] theorem State.emit_txAnswer (s : State) (e : Event) : (s.emit e).txAnswer = s.txAnswer := rfl
@[simp] theorem State.emit_sink (s : State) (e : Event) : (s.emit e).sink = s.sink := rfl
@[simp] theorem State.emit_draws (s : State) (e : Event) : (s.emit e).draws = s.draws := rfl
@[simp] theorem State.emit_answer (s : State) (e : Event) : (s.emit e).answer = s.answer := rfl
@[simp] theorem State.emit_trace (s : State) (e : Event) : (s.emit e).trace = s.trace ++ [e] := rfl

@[simp] theorem State.give_cfg (s : State) (a : Answer) : (s.give a).cfg = s.cfg := rfl
@[simp] theorem State.give_ph (s : State) (a : Answer) : (s.give a).ph = s.ph := rfl
@[simp] theorem State.give_idx (s : State) (a : Answer) : (s.give a).idx = s.idx := rfl
@[simp] theorem State.give_seq (s : State) (a : Answer) : (s.give a).seq = s.seq := rfl
@[simp] theorem State.give_occLast (s : State) (a : Answer) : (s.give a).occLast = s.occLast := rfl
@[simp] theorem State.give_occHeld (s : State) (a : Answer) : (s.give a).occHeld = s.occHeld := rfl
@[simp] theorem State.give_wbuf (s : State) (a : Answer) : (s.give a).wbuf = s.wbuf := rfl
@[simp] theorem State.give_fb (s : State) (a : Answer) : (s.give a).fb = s.fb := rfl
@[simp] theorem State.give_win (s : State) (a : Answer) : (s.give a).win = s.win := rfl
@[simp] theorem State.give_txh (s : State) (a : Answer) : (s.give a).txh = s.txh := rfl
@[simp] theorem State.give_q (s : State) (a : Answer) : (s.give a).q = s.q := rfl
@[simp] theorem State.give_ovf (s : State) (a : Answer) : (s.give a).ovf = s.ovf := rfl
@[simp] theorem State.give_undf (s : State) (a : Answer) : (s.give a).undf = s.undf := rfl
@[simp] theorem State.give_unwr (s : State) (a : Answer) : (s.give a).unwr = s.unwr := rfl
@[simp] theorem State.give_source (s : State) (a : Answer) : (s.give a).source = s.source := rfl
@[simp] theorem State.give_agenda (s : State) (a : Answer) : (s.give a).agenda = s.agenda := rfl
@[simp] theorem State.give_riAnswer (s : State) (a : Answer) : (s.give a).riAnswer = s.riAnswer := rfl
@[simp] theorem State.give_txAnswer (s : State) (a : Answer) : (s.give a).txAnswer = s.txAnswer := rfl
@[simp] theorem State.give_sink (s : State) (a : Answer) : (s.give a).sink = s.sink := rfl
@[simp] theorem State.give_draws (s : State) (a : Answer) : (s.give a).draws = s.draws := rfl
@[simp] theorem State.give_answer (s : State) (a : Answer) : (s.give a).answer = a := rfl
@[simp] theorem State.give_trace (s : State) (a : Answer) : (s.give a).trace = s.trace := rfl

@[simp] theorem State.readDone_cfg (s : State) (w : Window) (off v : Word) : (s.readDone w off v).cfg = s.cfg := rfl
@[simp] theorem State.readDone_ph (s : State) (w : Window) (off v : Word) : (s.readDone w off v).ph = s.ph := rfl
@[simp] theorem State.readDone_idx (s : State) (w : Window) (off v : Word) : (s.readDone w off v).idx = s.idx := rfl
@[simp] theorem State.readDone_seq (s : State) (w : Window) (off v : Word) : (s.readDone w off v).seq = s.seq := rfl
@[simp] theorem State.readDone_occLast (s : State) (w : Window) (off v : Word) : (s.readDone w off v).occLast = s.occLast := rfl
@[simp] theorem State.readDone_occHeld (s : State) (w : Window) (off v : Word) : (s.readDone w off v).occHeld = s.occHeld := rfl
@[simp] theorem State.readDone_wbuf (s : State) (w : Window) (off v : Word) : (s.readDone w off v).wbuf = s.wbuf := rfl
@[simp] theorem State.readDone_fb (s : State) (w : Window) (off v : Word) : (s.readDone w off v).fb = s.fb := rfl
@[simp] theorem State.readDone_win (s : State) (w : Window) (off v : Word) : (s.readDone w off v).win = s.win := rfl
@[simp] theorem State.readDone_txh (s : State) (w : Window) (off v : Word) : (s.readDone w off v).txh = s.txh := rfl
@[simp] theorem State.readDone_q (s : State) (w : Window) (off v : Word) : (s.readDone w off v).q = s.q := rfl
@[simp] theorem State.readDone_ovf (s : State) (w : Window) (off v : Word) : (s.readDone w off v).ovf = s.ovf := rfl
@[simp] theorem State.readDone_undf (s : State) (w : Window) (off v : Word) : (s.readDone w off v).undf = s.undf := rfl
@[simp] theorem State.readDone_unwr (s : State) (w : Window) (off v : Word) : (s.readDone w off v).unwr = s.unwr := rfl
@[simp] theorem State.readDone_source (s : State) (w : Window) (off v : Word) : (s.readDone w off v).source = s.source := rfl
@[simp] theorem State.readDone_agenda (s : State) (w : Window) (off v : Word) : (s.readDone w off v).agenda = s.agenda := rfl
@[simp] theorem State.readDone_riAnswer (s : State) (w : Window) (off v : Word) : (s.readDone w off v).riAnswer = s.riAnswer := rfl
@[simp] theorem State.readDone_txAnswer (s : State) (w : Window) (off v : Word) : (s.readDone w off v).txAnswer = s.txAnswer := rfl
@[simp] theorem State.readDone_sink (s : State) (w : Window) (off v : Word) : (s.readDone w off v).sink = s.sink := rfl
@[simp] theorem State.readDone_draws (s : State) (w : Window) (off v : Word) : (s.readDone w off v).draws = s.draws := rfl
@[simp] theorem State.readDone_answer (s : State) (w : Window) (off v : Word) : (s.readDone w off v).answer = .value v := rfl
@[simp] theorem State.readDone_trace (s : State) (w : Window) (off v : Word) : (s.readDone w off v).trace = s.trace ++ [.rd off (w.addr off) v] := rfl

@[simp] theorem State.putFrame_cfg (s : State) (j : Nat) (bs : List Byte) : (s.putFrame j bs).cfg = s.cfg := rfl
@[simp] theorem State.putFrame_ph (s : State) (j : Nat) (bs : List Byte) : (s.putFrame j bs).ph = s.ph := rfl
@[simp] theorem State.putFrame_idx (s : State) (j : Nat) (bs : List Byte) : (s.putFrame j bs).idx = s.idx := rfl
@[simp] theorem State.putFrame_seq (s : State) (j : Nat) (bs : List Byte) : (s.putFrame j bs).seq = s.seq := rfl
@[simp] theorem State.putFrame_occLast (s : State) (j : Nat) (bs : List Byte) : (s.putFrame j bs).occLast = s.occLast := rfl
@[simp] theorem State.putFrame_occHeld (s : State) (j : Nat) (bs : List Byte) : (s.putFrame j bs).occHeld = s.occHeld := rfl
@[simp] theorem State.putFrame_wbuf (s : State) (j : Nat) (bs : List Byte) : (s.putFrame j bs).wbuf = s.wbuf := rfl
@[simp] theorem State.putFrame_fb (s : State) (j : Nat) (bs : List Byte) : (s.putFrame j bs).fb = putCells s.fb j bs := rfl
@[simp] theorem State.putFrame_win (s : State) (j : Nat) (bs : List Byte) : (s.putFrame j bs).win = s.win := rfl
@[simp] theorem State.putFrame_txh (s : State) (j : Nat) (bs : List Byte) : (s.putFrame j bs).txh = s.txh := rfl
@[simp] theorem State.putFrame_q (s : State) (j : Nat) (bs : List Byte) : (s.putFrame j bs).q = s.q := rfl
@[simp] theorem State.putFrame_ovf (s : State) (j : Nat) (bs : List Byte) : (s.putFrame j bs).ovf = s.ovf := rfl
@[simp] theorem State.putFrame_undf (s : State) (j : Nat) (bs : List Byte) : (s.putFrame j bs).undf = s.undf := rfl
@[simp] theorem State.putFrame_unwr (s : State) (j : Nat) (bs : List Byte) : (s.putFrame j bs).unwr = s.unwr := rfl
@[simp] theorem State.putFrame_source (s : State) (j : Nat) (bs : List Byte) : (s.putFrame j bs).source = s.source := rfl
@[simp] theorem State.putFrame_agenda (s : State) (j : Nat) (bs : List Byte) : (s.putFrame j bs).agenda = s.agenda := rfl
@[simp] theorem State.putFrame_riAnswer (s : State) (j : Nat) (bs : List Byte) : (s.putFrame j bs).riAnswer = s.riAnswer := rfl
@[simp] theorem State.putFrame_txAnswer (s : State) (j : Nat) (bs : List Byte) : (s.putFrame j bs).txAnswer = s.txAnswer := rfl
@[simp] theorem State.putFrame_sink (s : State) (j : Nat) (bs : List Byte) : (s.putFrame j bs).sink = s.sink := rfl
@[simp] theorem State.putFrame_draws (s : State) (j : Nat) (bs : List Byte) : (s.putFrame j bs).draws = s.draws := rfl
@[simp] theorem State.putFrame_answer (s : State) (j : Nat) (bs : List Byte) : (s.putFrame j bs).answer = s.answer := rfl
@[simp] theorem State.putFrame_trace (s : State) (j : Nat) (bs : List Byte) : (s.putFrame j bs).trace = s.trace := rfl

@[simp] theorem State.noteRead_cfg (s : State) (h : Bool) : (s.noteRead h).cfg = s.cfg := by cases h <;> rfl
@[simp] theorem State.noteRead_ph (s : State) (h : Bool) : (s.noteRead h).ph = s.ph := by cases h <;> rfl
@[simp] theorem State.noteRead_idx (s : State) (h : Bool) : (s.noteRead h).idx = s.idx := by cases h <;> rfl
@[simp] theorem State.noteRead_seq (s : State) (h : Bool) : (s.noteRead h).seq = s.seq := by cases h <;> rfl
@[simp] theorem State.noteRead_occLast (s : State) (h : Bool) : (s.noteRead h).occLast = s.occLast := by cases h <;> rfl
@[simp] theorem State.noteRead_occHeld (s : State) (h : Bool) : (s.noteRead h).occHeld = s.occHeld := by cases h <;> rfl
@[simp] theorem State.noteRead_wbuf (s : State) (h : Bool) : (s.noteRead h).wbuf = s.wbuf := by cases h <;> rfl
@[simp] theorem State.noteRead_fb (s : State) (h : Bool) : (s.noteRead h).fb = s.fb := by cases h <;> rfl
@[simp] theorem State.noteRead_win (s : State) (h : Bool) : (s.noteRead h).win = s.win := by cases h <;> rfl
@[simp] theorem State.noteRead_txh (s : State) (h : Bool) : (s.noteRead h).txh = s.txh := by cases h <;> rfl
@[simp] theorem State.noteRead_q (s : State) (h : Bool) : (s.noteRead h).q = s.q := by cases h <;> rfl
@[simp] theorem State.noteRead_ovf (s : State) (h : Bool) : (s.noteRead h).ovf = s.ovf := by cases h <;> rfl
@[simp] theorem State.noteRead_undf (s : State) (h : Bool) : (s.noteRead h).undf = s.undf := by cases h <;> rfl
@[simp] theorem State.noteRead_source (s : State) (h : Bool) : (s.noteRead h).source = s.source := by cases h <;> rfl
@[simp] theorem State.noteRead_agenda (s : State) (h : Bool) : (s.noteRead h).agenda = s.agenda := by cases h <;> rfl
@[simp] theorem State.noteRead_riAnswer (s : State) (h : Bool) : (s.noteRead h).riAnswer = s.riAnswer := by cases h <;> rfl
@[simp] theorem State.noteRead_txAnswer (s : State) (h : Bool) : (s.noteRead h).txAnswer = s.txAnswer := by cases h <;> rfl
@[simp] theorem State.noteRead_sink (s : State) (h : Bool) : (s.noteRead h).sink = s.sink := by cases h <;> rfl
@[simp] theorem State.noteRead_answer (s : State) (h : Bool) : (s.noteRead h).answer = s.answer := by cases h <;> rfl
@[simp] theorem State.noteRead_trace (s : State) (h : Bool) : (s.noteRead h).trace = s.trace := by cases h <;> rfl
@[simp] theorem State.noteRead_unwr (s : State) (h : Bool) : (s.noteRead h).unwr = (s.unwr || !h) := by
  cases h <;> simp [State.noteRead]
@[simp] theorem State.noteRead_true (s : State) : s.noteRead true = s := rfl

@[simp] theorem takeFatal_cfg (c : Cause) (n : Nat) (s : State) : (takeFatal c n s).cfg = s.cfg := rfl
@[simp] theorem takeFatal_ph (c : Cause) (n : Nat) (s : State) : (takeFatal c n s).ph = .failed := rfl
@[simp] theorem takeFatal_idx (c : Cause) (n : Nat) (s : State) : (takeFatal c n s).idx = s.idx := rfl
@[simp] theorem takeFatal_seq (c : Cause) (n : Nat) (s : State) : (takeFatal c n s).seq = s.seq := rfl
@[simp] theorem takeFatal_occLast (c : Cause) (n : Nat) (s : State) : (takeFatal c n s).occLast = s.occLast := rfl
@[simp] theorem takeFatal_occHeld (c : Cause) (n : Nat) (s : State) : (takeFatal c n s).occHeld = s.occHeld := rfl
@[simp] theorem takeFatal_wbuf (c : Cause) (n : Nat) (s : State) : (takeFatal c n s).wbuf = s.wbuf := rfl
@[simp] theorem takeFatal_fb (c : Cause) (n : Nat) (s : State) : (takeFatal c n s).fb = s.fb := rfl
@[simp] theorem takeFatal_win (c : Cause) (n : Nat) (s : State) : (takeFatal c n s).win = s.win := rfl
@[simp] theorem takeFatal_txh (c : Cause) (n : Nat) (s : State) : (takeFatal c n s).txh = s.txh := rfl
@[simp] theorem takeFatal_q (c : Cause) (n : Nat) (s : State) : (takeFatal c n s).q = s.q := rfl
@[simp] theorem takeFatal_ovf (c : Cause) (n : Nat) (s : State) : (takeFatal c n s).ovf = s.ovf := rfl
@[simp] theorem takeFatal_undf (c : Cause) (n : Nat) (s : State) : (takeFatal c n s).undf = s.undf := rfl
@[simp] theorem takeFatal_unwr (c : Cause) (n : Nat) (s : State) : (takeFatal c n s).unwr = s.unwr := rfl
@[simp] theorem takeFatal_source (c : Cause) (n : Nat) (s : State) : (takeFatal c n s).source = s.source := rfl
@[simp] theorem takeFatal_agenda (c : Cause) (n : Nat) (s : State) : (takeFatal c n s).agenda = s.agenda := rfl
@[simp] theorem takeFatal_riAnswer (c : Cause) (n : Nat) (s : State) : (takeFatal c n s).riAnswer = s.riAnswer := rfl
@[simp] theorem takeFatal_txAnswer (c : Cause) (n : Nat) (s : State) : (takeFatal c n s).txAnswer = s.txAnswer := rfl
@[simp] theorem takeFatal_sink (c : Cause) (n : Nat) (s : State) : (takeFatal c n s).sink = s.sink := rfl
@[simp] theorem takeFatal_draws (c : Cause) (n : Nat) (s : State) : (takeFatal c n s).draws = s.draws := rfl
@[simp] theorem takeFatal_answer (c : Cause) (n : Nat) (s : State) : (takeFatal c n s).answer = s.answer := rfl
@[simp] theorem takeFatal_trace (c : Cause) (n : Nat) (s : State) : (takeFatal c n s).trace = s.trace ++ [failReport c, .exit n] := by
  simp [takeFatal]

@[simp] theorem reportSend_cfg (a : SinkAnswer) (s : State) : (reportSend a s).cfg = s.cfg := by
  unfold reportSend; split <;> rfl
@[simp] theorem reportSend_ph (a : SinkAnswer) (s : State) : (reportSend a s).ph = s.ph := by
  unfold reportSend; split <;> rfl
@[simp] theorem reportSend_idx (a : SinkAnswer) (s : State) : (reportSend a s).idx = s.idx := by
  unfold reportSend; split <;> rfl
@[simp] theorem reportSend_seq (a : SinkAnswer) (s : State) : (reportSend a s).seq = s.seq := by
  unfold reportSend; split <;> rfl
@[simp] theorem reportSend_occLast (a : SinkAnswer) (s : State) : (reportSend a s).occLast = s.occLast := by
  unfold reportSend; split <;> rfl
@[simp] theorem reportSend_occHeld (a : SinkAnswer) (s : State) : (reportSend a s).occHeld = s.occHeld := by
  unfold reportSend; split <;> rfl
@[simp] theorem reportSend_wbuf (a : SinkAnswer) (s : State) : (reportSend a s).wbuf = s.wbuf := by
  unfold reportSend; split <;> rfl
@[simp] theorem reportSend_fb (a : SinkAnswer) (s : State) : (reportSend a s).fb = s.fb := by
  unfold reportSend; split <;> rfl
@[simp] theorem reportSend_win (a : SinkAnswer) (s : State) : (reportSend a s).win = s.win := by
  unfold reportSend; split <;> rfl
@[simp] theorem reportSend_txh (a : SinkAnswer) (s : State) : (reportSend a s).txh = s.txh := by
  unfold reportSend; split <;> rfl
@[simp] theorem reportSend_q (a : SinkAnswer) (s : State) : (reportSend a s).q = s.q := by
  unfold reportSend; split <;> rfl
@[simp] theorem reportSend_ovf (a : SinkAnswer) (s : State) : (reportSend a s).ovf = s.ovf := by
  unfold reportSend; split <;> rfl
@[simp] theorem reportSend_undf (a : SinkAnswer) (s : State) : (reportSend a s).undf = s.undf := by
  unfold reportSend; split <;> rfl
@[simp] theorem reportSend_unwr (a : SinkAnswer) (s : State) : (reportSend a s).unwr = s.unwr := by
  unfold reportSend; split <;> rfl
@[simp] theorem reportSend_source (a : SinkAnswer) (s : State) : (reportSend a s).source = s.source := by
  unfold reportSend; split <;> rfl
@[simp] theorem reportSend_agenda (a : SinkAnswer) (s : State) : (reportSend a s).agenda = s.agenda := by
  unfold reportSend; split <;> rfl
@[simp] theorem reportSend_riAnswer (a : SinkAnswer) (s : State) : (reportSend a s).riAnswer = s.riAnswer := by
  unfold reportSend; split <;> rfl
@[simp] theorem reportSend_txAnswer (a : SinkAnswer) (s : State) : (reportSend a s).txAnswer = s.txAnswer := by
  unfold reportSend; split <;> rfl
@[simp] theorem reportSend_sink (a : SinkAnswer) (s : State) : (reportSend a s).sink = s.sink := by
  unfold reportSend; split <;> rfl
@[simp] theorem reportSend_draws (a : SinkAnswer) (s : State) : (reportSend a s).draws = s.draws := by
  unfold reportSend; split <;> rfl
@[simp] theorem reportSend_answer (a : SinkAnswer) (s : State) : (reportSend a s).answer = s.answer := by
  unfold reportSend; split <;> rfl

@[simp] theorem reportSend_trace (a : SinkAnswer) (s : State) :
    (reportSend a s).trace = s.trace ++ (if a = .ok then [] else [.reportTransient]) := by
  cases a <;> simp [reportSend, sinkCause]

end Sys2Proof.Machine
end

