-- ==== Sys2Proof/Laws/Ops.lean ====
section
/-!
SUPPORT. For each shared operation one lemma that says what it answers, to be cited instead of unfolding it.
-/
namespace Sys2Proof.Machine

theorem inPhase_eq_next {p : Phase} {s : State} {r : Result} {t : State} :
    inPhase p s r = .next t ↔ s.ph = p ∧ r = .next t := by
  unfold inPhase; split <;> simp_all

theorem withWindow_eq_next {s : State} {k : Window → Result} {t : State} :
    withWindow s k = .next t ↔ ∃ w, s.win = some w ∧ k w = .next t := by
  unfold withWindow; split <;> simp_all

theorem whileAlive_eq_next {s : State} {r : Result} {t : State} :
    whileAlive s r = .next t ↔ s.ph.terminal = false ∧ r = .next t := by
  unfold whileAlive; split <;> simp_all

theorem whileAlive_of_alive {s : State} (h : s.ph.terminal = false) (r : Result) : whileAlive s r = r := by
  simp [whileAlive, h]

theorem andThen_eq_next {r : Result} {k : State → Result} {t : State} :
    andThen r k = .next t ↔ ∃ m, r = .next m ∧ k m = .next t := by
  cases r <;> simp [andThen]

@[simp] theorem andThen_next (s : State) (k : State → Result) : andThen (.next s) k = k s := rfl

theorem inPhase_of_eq {p : Phase} {s : State} (h : s.ph = p) (r : Result) : inPhase p s r = r := if_pos h

theorem withWindow_of_some {s : State} {w : Window} (h : s.win = some w) (k : Window → Result) :
    withWindow s k = k w := by simp [withWindow, h]

/-- Everything RD_OCC can do: one event, one answer, and the source and the draw counter may move. -/
theorem readOcc_spec (w : Window) (s : State) :
    ∃ v src n, readOcc w s = (v, { s with
        source := src, draws := n, answer := .value v
        trace := s.trace ++ [.rd s.cfg.occOff (w.addr s.cfg.occOff) v] }) ∧
      (s.source = .fifo → v = BitVec.ofNat 32 s.q.length ∧ src = .fifo ∧ n = s.draws) ∧
      (∀ x occ data, s.source = .script (x :: occ) data → v = x ∧ src = .script occ data ∧ n = s.draws) ∧
      (∀ data, s.source = .script [] data → src = s.source) := by
  unfold readOcc
  split <;> exact ⟨_, _, _, rfl, by simp_all, by simp_all, by simp_all⟩

/-- Everything RD_DATA can do: one event, one answer, and the head of the queue is taken where there is one. -/
theorem readData_spec (w : Window) (s : State) :
    ∃ v q u src n, readData w s = (v, { s with
        q := q, undf := u, source := src, draws := n, answer := .value v
        trace := s.trace ++ [.rd s.cfg.dataOff (w.addr s.cfg.dataOff) v] }) ∧
      (s.source = .fifo → src = .fifo ∧
        (∀ x rest, s.q = x :: rest → v = x ∧ q = rest ∧ u = s.undf ∧ n = s.draws) ∧
        (s.q = [] → q = [] ∧ u = true)) ∧
      (∀ occ x data, s.source = .script occ (x :: data) →
        v = x ∧ src = .script occ data ∧ q = s.q ∧ u = s.undf ∧ n = s.draws) ∧
      (∀ occ, s.source = .script occ [] → src = s.source ∧ q = s.q ∧ u = s.undf) ∧
      q.length ≤ s.q.length := by
  unfold readData
  split
  · split <;> exact ⟨_, _, _, _, _, rfl, by simp_all, by simp_all, by simp_all, by simp_all⟩
  · exact ⟨_, _, _, _, _, rfl, by simp_all, by simp_all, by simp_all, by simp_all⟩
  · exact ⟨_, _, _, _, _, rfl, by simp_all, by simp_all, by simp_all, by simp_all⟩

/-- Everything RI_OPEN can do: one event and one answer; `WIN` is written exactly when it raises nothing. -/
theorem openWindow_spec (base span : Nat) (s : State) :
    ∃ c win a, openWindow base span s =
        (c, { s with win := win, answer := a, trace := s.trace ++ [.openRi base span c] }) ∧
      (c = none → win = some (Window.mk base span) ∧ a = .opened ∧ offsetsInside s.cfg span = true ∧
        s.riAnswer = .ok) ∧
      (∀ e, c = some e → win = s.win ∧ a = .error e ∧ e ≠ .cfgInvalid ∧
        (offsetsInside s.cfg span = true → riCause s.riAnswer = some e) ∧
        (offsetsInside s.cfg span = false → e = .boundsAtOpen)) ∧
      (c = none ↔ offsetsInside s.cfg span = true ∧ (riCause s.riAnswer).isNone = true) := by
  by_cases ho : offsetsInside s.cfg span = true
  · rcases hr : riCause s.riAnswer with _ | c
    · refine ⟨none, some (Window.mk base span), .opened, by simp only [openWindow, ho, hr]; rfl, ?_, by simp,
        by simp [ho]⟩
      refine fun _ => ⟨rfl, rfl, ho, ?_⟩
      revert hr; cases s.riAnswer <;> simp [riCause]
    · refine ⟨some c, s.win, .error c, by simp only [openWindow, ho, hr]; rfl, by simp, ?_, by simp⟩
      rintro e ⟨⟩
      refine ⟨rfl, rfl, ?_, by simp, by simp [ho]⟩
      revert hr; cases s.riAnswer <;> simp [riCause] <;> rintro rfl <;> simp
  · refine ⟨some .boundsAtOpen, s.win, .error .boundsAtOpen, by simp only [openWindow, ho]; rfl, by simp, ?_,
      by simp [ho]⟩
    rintro e ⟨⟩
    exact ⟨rfl, rfl, by simp, by simp [ho], by simp⟩

/-- Everything TX_OPEN can do: one event and one answer; `TXH` is written exactly when it raises nothing. -/
theorem openSink_spec (d : Dest) (s : State) :
    ∃ c txh a, openSink d s = (c, { s with txh := txh, answer := a, trace := s.trace ++ [.openTx d c] }) ∧
      c = txCause s.txAnswer ∧ (c = none → txh = some d ∧ a = .opened) ∧
      (∀ e, c = some e → txh = s.txh ∧ a = .error e ∧ e ≠ .cfgInvalid) := by
  rcases hr : txCause s.txAnswer with _ | c
  · exact ⟨none, some d, .opened, by simp only [openSink, hr]; rfl, rfl, by simp, by simp⟩
  · refine ⟨some c, s.txh, .error c, by simp only [openSink, hr]; rfl, rfl, by simp, ?_⟩
    rintro e ⟨⟩
    refine ⟨rfl, rfl, ?_⟩
    revert hr; cases s.txAnswer <;> simp [txCause] <;> rintro rfl <;> simp

/-- Where `WBUF` holds a list of `N` words, that list is what is read from it, and nothing unwritten is read. -/
theorem words_of_cells {s : State} {ws : List Word} (hl : ws.length = s.cfg.n)
    (h : ∀ j, j < s.cfg.n → cellAt s.wbuf j = ws[j]?) : s.words = ws ∧ s.wordsHeld = true := by
  have hs : ∀ j, j < s.cfg.n → ∃ v, cellAt s.wbuf j = some v := fun j hj => by
    rw [h j hj, List.getElem?_eq_getElem (by omega)]; exact ⟨_, rfl⟩
  refine ⟨List.ext_getElem? fun j => ?_, ?_⟩
  · by_cases hj : j < s.cfg.n
    · obtain ⟨v, hv⟩ := hs j hj
      simp [← h j hj, hv, State.words, hj, State.wordAt]
    · simp [State.words, hj, List.getElem?_eq_none (show ws.length ≤ j by omega)]
  · simp only [State.wordsHeld, List.all_eq_true, List.mem_range]
    intro j hj
    obtain ⟨v, hv⟩ := hs j hj
    simp [hv]

/-- Where `FB` holds a frame, that frame is what is read from it, and nothing unwritten is read. -/
theorem frame_of_cells {s : State} {f : List Byte} (hl : f.length = frameLen s.cfg)
    (h : ∀ j, j < frameLen s.cfg → cellAt s.fb j = f[j]?) : s.frame = f ∧ s.frameHeld = true := by
  have hs : ∀ j, j < frameLen s.cfg → ∃ v, cellAt s.fb j = some v := fun j hj => by
    rw [h j hj, List.getElem?_eq_getElem (by omega)]; exact ⟨_, rfl⟩
  refine ⟨List.ext_getElem? fun j => ?_, ?_⟩
  · by_cases hj : j < frameLen s.cfg
    · obtain ⟨v, hv⟩ := hs j hj
      simp [← h j hj, hv, State.frame, hj, State.byteAt]
    · simp [State.frame, hj, List.getElem?_eq_none (show f.length ≤ j by omega)]
  · simp only [State.frameHeld, List.all_eq_true, List.mem_range]
    intro j hj
    obtain ⟨v, hv⟩ := hs j hj
    simp [hv]

/-- The buffers right after reset are in canonical form. -/
theorem reset_cells : cellsWf State.reset.wbuf = true ∧ cellsWf State.reset.fb = true := ⟨rfl, rfl⟩

/-- The sink's answer is always one of those R162 gives, and a failure where the frame is too large. -/
theorem sinkReply_legal (c : Config) (f : Option Nat) (a : SinkAnswer) :
    (sinkReply c f a = .ok ∨ (∃ k, k < frameLen c ∧ sinkReply c f a = .short k) ∨ sinkReply c f a = .err) ∧
      (c.maxMsg < frameLen c → sinkReply c f a ≠ .ok) := by
  have hl : 0 < frameLen c := by unfold frameLen; omega
  have hm : ∀ k, k % frameLen c < frameLen c := fun k => Nat.mod_lt _ hl
  cases a with
  | ok =>
    simp only [sinkReply, legalAnswer]
    split
    · exact ⟨.inl rfl, fun h => by omega⟩
    · cases f with
      | none => simp [failingAnswer]
      | some k => exact ⟨.inr (.inl ⟨_, hm k, rfl⟩), fun _ => by simp [failingAnswer]⟩
  | short k => exact ⟨.inr (.inl ⟨_, hm k, rfl⟩), fun _ => by simp [sinkReply, legalAnswer]⟩
  | err => simp [sinkReply, legalAnswer]

/-- An answer the state lists that is in the set R162 gives is the answer, where the frame fits. -/
theorem sinkReply_of_legal (c : Config) (f : Option Nat) (a : SinkAnswer)
    (h : ∀ k, a = .short k → k < frameLen c) (hm : frameLen c ≤ c.maxMsg) : sinkReply c f a = a := by
  cases a with
  | ok => simp [sinkReply, legalAnswer, hm]
  | short k => simp [sinkReply, legalAnswer, Nat.mod_eq_of_lt (h k rfl)]
  | err => rfl

/-- Everything the sink's reply can change: the list of answers and the draw counter. -/
theorem takeReply_spec (s : State) :
    ∃ a rest, takeReply s = (sinkReply s.cfg (Config.freeFailure s.draws) a,
        { s with sink := rest, draws := s.draws + 1 }) ∧
      (∀ b r, s.sink = b :: r → a = b ∧ rest = r) := by
  unfold takeReply
  split
  · exact ⟨_, _, rfl, by simp_all⟩
  · next h => exact ⟨Config.freeAnswer s.draws, s.sink, by simp [h], by simp [h]⟩

theorem reportSend_goto (a : SinkAnswer) (s : State) :
    reportSend a s = { s with trace := s.trace ++ (if a = .ok then [] else [.reportTransient]) } := by
  cases a <;> simp [reportSend, sinkCause, State.emit]

/-- Everything SEND does, once the sink is open. -/
theorem execSend_spec (s : State) (d : Dest) (hp : s.ph = .send) (hd : s.txh = some d) :
    ∃ a rest n, execSend s = .next { s with
        ph := .adv, sink := rest, draws := n, unwr := s.unwr || !s.frameHeld
        trace := s.trace ++ (if a = .ok then [.send d s.frame a] else [.send d s.frame a, .reportTransient]) } ∧
      (a = .ok ∨ (∃ k, k < frameLen s.cfg ∧ a = .short k) ∨ a = .err) ∧
      (s.cfg.maxMsg < frameLen s.cfg → a ≠ .ok) ∧
      (∀ b r, s.sink = b :: r → rest = r ∧
        ((∀ k, b = .short k → k < frameLen s.cfg) → frameLen s.cfg ≤ s.cfg.maxMsg → a = b)) ∧
      n = s.draws + 1 + (if s.frameHeld then 0 else 1) := by
  obtain ⟨a, rest, hr, hb⟩ := takeReply_spec s
  refine ⟨sinkReply s.cfg (Config.freeFailure s.draws) a, rest, _, ?_, (sinkReply_legal _ _ _).1,
    (sinkReply_legal _ _ _).2, ?_, rfl⟩
  · rw [execSend, inPhase_of_eq hp, hd]
    simp only [hr, sendDone, reportSend_goto]
    cases s.frameHeld <;> cases h : sinkReply s.cfg (Config.freeFailure s.draws) a <;>
      simp [State.noteRead, State.goto, State.emit, hd]
  · intro b r h
    obtain ⟨rfl, rfl⟩ := hb b r h
    exact ⟨rfl, fun h1 h2 => sinkReply_of_legal _ _ _ h1 h2⟩

end Sys2Proof.Machine
end

