-- ==== Sys2Proof/Laws/Meanings.lean ====
section
/-!
SUPPORT. One inversion lemma per operation that is not a pseudo-operation: if it answers a next state, then that state
is this one. The invariants are proved from these, with no meaning unfolded again.
-/
namespace Sys2Proof.Machine

theorem execRiOpen_next {base span : Nat} {s t : State} (h : execRiOpen base span s = .next t) :
    s.ph = .init ∧ s.win = none ∧ ∃ c win a,
      t = { s with win := win, answer := a, trace := s.trace ++ [.openRi base span c] } ∧
      (win = none ∨ win = some (Window.mk base span) ∧ offsetsInside s.cfg span = true) := by
  obtain ⟨hp, h⟩ := inPhase_eq_next.1 h
  split at h
  · next hw =>
    obtain ⟨c, win, a, he, h1, h2, -⟩ := openWindow_spec base span s
    rw [he] at h
    cases h
    refine ⟨hp, hw, c, win, a, rfl, ?_⟩
    cases c with
    | none => exact .inr ⟨(h1 rfl).1, (h1 rfl).2.2.1⟩
    | some e => exact .inl ((h2 e rfl).1.trans hw)
  · cases h

theorem execRdOcc_next {s t : State} (h : execRdOcc s = .next t) :
    s.ph.terminal = false ∧ ∃ w v src n, s.win = some w ∧ t = { s with
        source := src, draws := n, answer := .value v
        trace := s.trace ++ [.rd s.cfg.occOff (w.addr s.cfg.occOff) v] } ∧
      (s.source = .fifo → v = BitVec.ofNat 32 s.q.length ∧ src = .fifo) := by
  obtain ⟨w, hw, h⟩ := withWindow_eq_next.1 h
  obtain ⟨ht, h⟩ := whileAlive_eq_next.1 h
  obtain ⟨v, src, n, he, h1, -⟩ := readOcc_spec w s
  rw [he] at h
  cases h
  exact ⟨ht, w, v, src, n, hw, rfl, fun hf => ⟨(h1 hf).1, (h1 hf).2.1⟩⟩

/-- What a read of DATA does to the queue and the ghost bit `undf`, against the FIFO. -/
def Popped (s : State) (v : Word) (q : List Word) (u : Bool) : Prop :=
  s.source = .fifo → (s.q = v :: q ∧ u = s.undf) ∨ (s.q = [] ∧ q = [] ∧ u = true)

theorem execRdData_next {s t : State} (h : execRdData s = .next t) :
    s.ph.terminal = false ∧ ∃ w v q u src n, s.win = some w ∧ t = { s with
        q := q, undf := u, source := src, draws := n, answer := .value v
        trace := s.trace ++ [.rd s.cfg.dataOff (w.addr s.cfg.dataOff) v] } ∧
      Popped s v q u ∧ (s.source = .fifo → src = .fifo) ∧ q.length ≤ s.q.length := by
  obtain ⟨w, hw, h⟩ := withWindow_eq_next.1 h
  obtain ⟨ht, h⟩ := whileAlive_eq_next.1 h
  obtain ⟨v, q, u, src, n, he, h1, -, -, h4⟩ := readData_spec w s
  rw [he] at h
  cases h
  refine ⟨ht, w, v, q, u, src, n, hw, rfl, fun hf => ?_, fun hf => (h1 hf).1, h4⟩
  rcases hq : s.q with _ | ⟨x, rest⟩
  · exact .inr ⟨rfl, (h1 hf).2.2 hq⟩
  · obtain ⟨rfl, rfl, h5, -⟩ := (h1 hf).2.1 x rest hq
    exact .inl ⟨rfl, h5⟩

theorem execRdOob_next {off : Word} {s t : State} (h : execRdOob off s = .next t) :
    ∃ w, s.win = some w ∧ w.span ≤ off.toNat ∧ t = { s with answer := .error (.boundsAtRead off) } := by
  obtain ⟨w, hw, h⟩ := withWindow_eq_next.1 h
  split at h
  · next hs => cases h; exact ⟨w, hw, hs, rfl⟩
  · cases h

theorem execPoll_next {s t : State} (h : execPoll s = .next t) :
    s.ph = .poll ∧ ∃ w v src n, s.win = some w ∧ t = { s with
        source := src, draws := n, occLast := v, occHeld := true
        ph := if wordAvailable v then .pop else .poll
        answer := .value v
        trace := s.trace ++ [.rd s.cfg.occOff (w.addr s.cfg.occOff) v] } ∧
      (s.source = .fifo → v = BitVec.ofNat 32 s.q.length ∧ src = .fifo) := by
  obtain ⟨hp, h⟩ := inPhase_eq_next.1 h
  obtain ⟨w, hw, h⟩ := withWindow_eq_next.1 h
  obtain ⟨v, src, n, he, h1, -⟩ := readOcc_spec w s
  rw [he] at h
  cases h
  exact ⟨hp, w, v, src, n, hw, rfl, fun hf => ⟨(h1 hf).1, (h1 hf).2.1⟩⟩

theorem execPop_next {s t : State} (h : execPop s = .next t) :
    s.ph = .pop ∧ s.idx < s.cfg.n ∧ ∃ w v q u src n, s.win = some w ∧ t = { s with
        q := q, undf := u, source := src, draws := n, answer := .value v
        trace := s.trace ++ [.rd s.cfg.dataOff (w.addr s.cfg.dataOff) v]
        wbuf := putCell s.wbuf s.idx v
        idx := if s.idx = s.cfg.n - 1 then 0 else s.idx + 1
        ph := if s.idx = s.cfg.n - 1 then .pack else .poll } ∧
      Popped s v q u ∧ (s.source = .fifo → src = .fifo) ∧ q.length ≤ s.q.length := by
  obtain ⟨hp, h⟩ := inPhase_eq_next.1 h
  obtain ⟨w, hw, h⟩ := withWindow_eq_next.1 h
  split at h
  · next hi =>
    obtain ⟨v, q, u, src, n, he, h1, -, -, h4⟩ := readData_spec w s
    rw [he] at h
    cases h
    refine ⟨hp, hi, w, v, q, u, src, n, hw, ?_, fun hf => ?_, fun hf => (h1 hf).1, h4⟩
    · simp only [popDone, lastWord, beq_iff_eq]
      by_cases hl : s.idx = s.cfg.n - 1 <;> simp only [hl] <;> rfl
    · rcases hq : s.q with _ | ⟨x, rest⟩
      · exact .inr ⟨rfl, (h1 hf).2.2 hq⟩
      · obtain ⟨rfl, rfl, h5, -⟩ := (h1 hf).2.1 x rest hq
        exact .inl ⟨rfl, h5⟩
  · cases h

theorem execPackCtr_next {c : Word} {s t : State} (h : execPackCtr c s = .next t) :
    s.ph = .pack ∧ t = { s with fb := putCells s.fb 0 (le32 c) } := by
  obtain ⟨hp, h⟩ := inPhase_eq_next.1 h
  cases h; exact ⟨hp, rfl⟩

theorem execPackIq_next {i : Nat} {w : Word} {s t : State} (h : execPackIq i w s = .next t) :
    s.ph = .pack ∧ i < s.cfg.n ∧ t = { s with fb := putCells s.fb (4 + 4 * i) (iqBytes w) } := by
  obtain ⟨hp, h⟩ := inPhase_eq_next.1 h
  split at h
  · next hi => cases h; exact ⟨hp, hi, rfl⟩
  · cases h

/-- The state BUILD_FRAME leaves. -/
theorem execBuildFrame_eq {s : State} (hp : s.ph = .pack) :
    execBuildFrame s = .next { s with
      fb := putCells s.fb 0 (frameOf s.seq s.words), ph := .send
      unwr := s.unwr || !s.wordsHeld, draws := if s.wordsHeld then s.draws else s.draws + 1 } := by
  rw [execBuildFrame, inPhase_of_eq hp]
  cases hw : s.wordsHeld <;> simp [State.noteRead, State.putFrame, State.goto]

theorem execBuildFrame_next {s t : State} (h : execBuildFrame s = .next t) :
    s.ph = .pack ∧ t = { s with
      fb := putCells s.fb 0 (frameOf s.seq s.words), ph := .send
      unwr := s.unwr || !s.wordsHeld, draws := if s.wordsHeld then s.draws else s.draws + 1 } := by
  have hp := (inPhase_eq_next.1 h).1
  rw [execBuildFrame_eq hp] at h
  cases h; exact ⟨hp, rfl⟩

theorem execTxOpen_next {d : Dest} {s t : State} (h : execTxOpen d s = .next t) :
    s.ph = .init ∧ s.win ≠ none ∧ s.txh = none ∧ ∃ c txh a,
      t = { s with txh := txh, answer := a, trace := s.trace ++ [.openTx d c] } ∧ (txh = none ∨ txh = some d) := by
  obtain ⟨hp, h⟩ := inPhase_eq_next.1 h
  split at h
  · next w hw ht =>
    obtain ⟨c, txh, a, he, -, h1, h2⟩ := openSink_spec d s
    rw [he] at h
    cases h
    refine ⟨hp, by simp [hw], ht, c, txh, a, rfl, ?_⟩
    cases c with
    | none => exact .inr (h1 rfl).1
    | some e => exact .inl ((h2 e rfl).1.trans ht)
  · cases h

theorem execSend_next {s t : State} (h : execSend s = .next t) :
    s.ph = .send ∧ ∃ d a rest n, s.txh = some d ∧ t = { s with
        ph := .adv, sink := rest, draws := n, unwr := s.unwr || !s.frameHeld
        trace := s.trace ++ (if a = .ok then [.send d s.frame a] else [.send d s.frame a, .reportTransient]) } := by
  have hp := (inPhase_eq_next.1 h).1
  cases hd : s.txh with
  | none => simp [execSend, inPhase_of_eq hp, hd] at h
  | some d =>
    obtain ⟨a, rest, n, he, -⟩ := execSend_spec s d hp hd
    rw [he] at h
    cases h
    exact ⟨hp, d, a, rest, n, rfl, by simp [hd]⟩

/-- The events that are no register read, no frame and no push: those of startup and of the end of a run. -/
def Event.quiet : Event → Bool
  | .rd _ _ _ | .send _ _ _ | .push _ => false
  | .openRi _ _ _ | .openTx _ _ | .reportTransient | .status | .usage | .failureReport _ | .exit _ | .kill => true

@[simp] theorem Event.quiet_openRi (b n : Nat) (c : Option Cause) : (Event.openRi b n c).quiet = true := rfl
@[simp] theorem Event.quiet_openTx (d : Dest) (c : Option Cause) : (Event.openTx d c).quiet = true := rfl
@[simp] theorem Event.quiet_usage : Event.usage.quiet = true := rfl
@[simp] theorem Event.quiet_exit (n : Nat) : (Event.exit n).quiet = true := rfl

@[simp] theorem failReport_quiet (c : Cause) : (failReport c).quiet = true := by cases c <;> rfl

/-- INIT succeeds exactly when the configuration is valid, both offsets are inside and both answers are OK. -/
def InitOk (s : State) : Prop :=
  destOf s.cfg ≠ none ∧ offsetsInside s.cfg s.cfg.span = true ∧ riCause s.riAnswer = none ∧
    txCause s.txAnswer = none

/-- Everything INIT can leave: STREAMING; or `FAILED`, by a configuration error, by a window that does not open, or by
a sink that does not open. -/
theorem execInit_next {s t : State} (h : execInit s = .next t) :
    s.ph = .init ∧
      ((InitOk s ∧ ∃ d, destOf s.cfg = some d ∧ t = { s with
          win := some (Window.mk s.cfg.base s.cfg.span), txh := some d, seq := s.cfg.seqInit, idx := 0, ph := .poll
          answer := .opened
          trace := s.trace ++ [.openRi s.cfg.base s.cfg.span none, .openTx d none, .status] }) ∨
      (¬ InitOk s ∧ ∃ win a evs,
        t = { s with win := win, ph := .failed, answer := a, trace := s.trace ++ evs } ∧
        (win = s.win ∨ win = some (Window.mk s.cfg.base s.cfg.span) ∧ offsetsInside s.cfg s.cfg.span = true) ∧
        ∀ e ∈ evs, e.quiet = true)) := by
  obtain ⟨hp, h⟩ := inPhase_eq_next.1 h
  refine ⟨hp, ?_⟩
  cases hd : destOf s.cfg with
  | none =>
    rw [hd] at h
    cases h
    refine .inr ⟨fun hi => hi.1 hd, s.win, s.answer, [.usage, .exit 1],
      by simp [takeFatal, State.emit, State.goto, failReport], .inl rfl, ?_⟩
    simp
  | some d =>
    rw [hd] at h
    simp only at h
    cases h
    obtain ⟨c, win, a, he, h1, h2, h3⟩ := openWindow_spec s.cfg.base s.cfg.span s
    rw [initOpen, he]
    cases c with
    | some e =>
      refine .inr ⟨fun hi => ?_, win, a, _, by
        simp only [takeFatal, State.emit, State.goto, List.append_assoc, List.cons_append, List.nil_append]; rfl,
        .inl (h2 e rfl).1, ?_⟩
      · have := h3.2 ⟨hi.2.1, by rw [hi.2.2.1]; rfl⟩
        cases this
      · simp
    | none =>
      obtain ⟨rfl, rfl, ho, hr⟩ := h1 rfl
      simp only [initSink]
      obtain ⟨c, txh, a, he', hc, h4, h5⟩ := openSink_spec d { s with
        win := some (Window.mk s.cfg.base s.cfg.span), answer := .opened
        trace := s.trace ++ [.openRi s.cfg.base s.cfg.span none] }
      rw [he']
      cases c with
      | none =>
        obtain ⟨rfl, rfl⟩ := h4 rfl
        refine .inl ⟨⟨by simp [hd], ho, by simp [hr, riCause], hc.symm⟩, d, rfl, ?_⟩
        simp [initDone, State.emit, State.goto]
      | some e =>
        obtain ⟨rfl, rfl, -⟩ := h5 e rfl
        refine .inr ⟨fun hi => ?_, _, _, _, by
          simp only [takeFatal, State.emit, State.goto, List.append_assoc, List.cons_append, List.nil_append]; rfl,
          .inr ⟨rfl, ho⟩, ?_⟩
        · simp only at hc; rw [hi.2.2.2] at hc; cases hc
        · simp

theorem execAdv_next {s t : State} (h : execAdv s = .next t) :
    s.ph = .adv ∧ t = { s with seq := s.seq + 1, ph := .poll } := by
  obtain ⟨hp, h⟩ := inPhase_eq_next.1 h
  cases h; exact ⟨hp, rfl⟩

theorem execFail_next {c : Cause} {n : Nat} {s t : State} (h : execFail c n s = .next t) :
    s.ph = .init ∧ fatalCause c = true ∧ failStatusOk c n = true ∧
      t = { s with ph := .failed, trace := s.trace ++ [failReport c, .exit n] } := by
  obtain ⟨hp, h⟩ := inPhase_eq_next.1 h
  split at h
  · next hc =>
    cases h
    simp only [Bool.and_eq_true] at hc
    exact ⟨hp, hc.1, hc.2, by simp [takeFatal, State.emit, State.goto]⟩
  · cases h

theorem execKill_next {s t : State} (h : execKill s = .next t) :
    s.ph.terminal = false ∧ t = { s with ph := .halted, trace := s.trace ++ [.kill] } := by
  unfold execKill at h
  split at h
  · cases h
  · next hp => cases h; exact ⟨by simpa using hp, rfl⟩

theorem execPush_next {w : Word} {s t : State} (h : execPush w s = .next t) :
    ∃ q v n, t = { s with q := q, ovf := v, draws := n, trace := s.trace ++ [.push w] } ∧
      ((s.q.length < s.cfg.depth ∧ q = s.q ++ [w] ∧ v = s.ovf) ∨
        (s.cfg.depth ≤ s.q.length ∧ q.length ≤ s.cfg.depth ∧ v = true)) := by
  unfold execPush at h
  split at h
  · next hl => cases h; exact ⟨_, _, _, rfl, .inl ⟨hl, rfl, rfl⟩⟩
  · next hl =>
    cases h
    exact ⟨_, _, _, rfl, .inr ⟨by omega, by simp, rfl⟩⟩

end Sys2Proof.Machine
end

