-- ==== Sys2Proof/Laws/Turns.lean ====
section
/-!
SUPPORT. What a turn can be, and the induction for statements about every operation: what holds of each operation that
is no pseudo-operation, holds of the pseudo-operations, which are made of turns.
-/
namespace Sys2Proof.Machine

/-- The pseudo-operations (30_encoding.md rule R85). -/
def isPseudo : Instr → Bool
  | .nextWord | .collect | .cycle => true
  | .riOpen _ _ | .rdOcc | .rdData | .rdUndef _ | .rdOob _ | .wr _ _ => false
  | .poll | .pop | .packCtr _ | .packIq _ _ | .buildFrame | .txOpen _ | .send | .init | .adv => false
  | .fail _ _ | .kill | .push _ => false

/-- The operation of each phase. -/
def phaseInstr : Phase → Option Instr
  | .init => some .init
  | .poll => some .poll
  | .pop => some .pop
  | .pack => some .buildFrame
  | .send => some .send
  | .adv => some .adv
  | .failed | .halted => none

theorem phaseInstr_not_pseudo {p : Phase} {i : Instr} (h : phaseInstr p = some i) : isPseudo i = false := by
  cases p <;> simp [phaseInstr] at h <;> subst h <;> rfl

/-- The sequencer's turn is the operation of its phase, or the end of the run. -/
theorem seqTurn_eq (s : State) :
    seqTurn s = match phaseInstr s.ph with | some i => exec i s | none => .fault (.runEnded s.ph) := by
  unfold seqTurn phaseInstr; cases s.ph <;> rfl

/-- A call by another caller that is answered is a read outside the window. -/
theorem accessTurn_next {bytes : List Byte} {rest : List Turn} {s t : State}
    (h : accessTurn bytes rest s = .next t) :
    ∃ off, exec (.rdOob off) { s with agenda := rest } = .next t := by
  unfold accessTurn at h
  split at h <;> first | exact ⟨_, h⟩ | cases h

/-- Everything a turn can be: the operation of the phase, a push, a KILL, or another caller's read outside the window,
in the state with that turn taken off the agenda. -/
theorem turn_next {s t : State} (h : turn s = .next t) :
    ∃ i rest, exec i { s with agenda := rest } = .next t ∧
      ((phaseInstr s.ph = some i ∧ (s.agenda = [] ∧ rest = [] ∨ s.agenda = .seq :: rest)) ∨
        (∃ w, i = .push w ∧ s.agenda = .push w :: rest) ∨ (i = .kill ∧ s.agenda = .kill :: rest) ∨
        (∃ bytes off, i = .rdOob off ∧ s.agenda = .access bytes :: rest)) := by
  have seqCase : ∀ rest, seqTurn { s with agenda := rest } = .next t →
      ∃ i, phaseInstr s.ph = some i ∧ exec i { s with agenda := rest } = .next t := by
    intro rest h
    rw [seqTurn_eq] at h
    split at h
    · next i hi => exact ⟨i, hi, h⟩
    · cases h
  unfold turn at h
  split at h
  · next ha =>
    have hs : s = { s with agenda := [] } := by rw [← ha]
    rw [hs] at h
    obtain ⟨i, hi, he⟩ := seqCase [] h
    exact ⟨i, [], he, .inl ⟨hi, .inl ⟨ha, rfl⟩⟩⟩
  · next rest ha =>
    obtain ⟨i, hi, he⟩ := seqCase rest h
    exact ⟨i, rest, he, .inl ⟨hi, .inr ha⟩⟩
  · next w rest ha => exact ⟨.push w, rest, h, .inr (.inl ⟨w, rfl, ha⟩)⟩
  · next rest ha => exact ⟨.kill, rest, h, .inr (.inr (.inl ⟨rfl, ha⟩))⟩
  · next bytes rest ha =>
    obtain ⟨off, he⟩ := accessTurn_next h
    exact ⟨.rdOob off, rest, he, .inr (.inr (.inr ⟨bytes, off, rfl, ha⟩))⟩

/-- With no turn listed the sequencer moves. -/
theorem turn_nil {s : State} (h : s.agenda = []) : turn s = seqTurn s := by unfold turn; rw [h]

/-- In another phase there is no turn to wait for. -/
theorem turnsWhile_of_ne {p : Phase} {s : State} (h : s.ph ≠ p) : ∀ n, turnsWhile p n s = .next s
  | 0 => rfl
  | _ + 1 => if_neg h

/-- With no other agent to move, leaving a phase that one step leaves is that step. -/
theorem leavePhase_of_step {s t : State} (ha : s.agenda = []) (h : seqTurn s = .next t) (hp : t.ph ≠ s.ph) :
    leavePhase s.ph s = .next t := by
  unfold leavePhase patience
  generalize (match s.source with | .fifo => 0 | .script occ _ => occ.length) = n
  rw [turnsWhile, if_pos rfl, turn_nil ha, h, andThen_next, turnsWhile_of_ne hp]

/-- Everything a NEXT_WORD can do: the poll loop; then, if it was left for `POP`, the pop, with the answer `waiting`
where a KILL came first; else the answer `waiting`. -/
theorem nextWordTurns_next {s t : State} (h : nextWordTurns s = .next t) :
    ∃ m, leavePhase .poll s = .next m ∧
      ((m.ph = .pop ∧ ∃ u, leavePhase .pop m = .next u ∧ (t = u ∨ t = { u with answer := .waiting })) ∨
        (m.ph ≠ .pop ∧ t = { m with answer := .waiting })) := by
  obtain ⟨m, h1, h2⟩ := andThen_eq_next.1 h
  refine ⟨m, h1, ?_⟩
  unfold popTurns at h2
  split at h2
  · next hp =>
    obtain ⟨u, h3, h4⟩ := andThen_eq_next.1 h2
    refine .inl ⟨hp, u, h3, ?_⟩
    cases h4
    unfold popReturn
    split
    · exact .inr rfl
    · exact .inl rfl
  · next hp => cases h2; exact .inr ⟨hp, rfl⟩

/-- A caller goes on exactly when what it called has returned. -/
theorem afterReturn_next {k : State → Result} {s t : State} (h : afterReturn k s = .next t) :
    (s.answer = .waiting ∧ t = s) ∨ (s.answer ≠ .waiting ∧ k s = .next t) := by
  unfold afterReturn at h
  split at h
  · next ha => cases h; exact .inl ⟨ha, rfl⟩
  all_goals next ha => exact .inr ⟨by simp [ha], h⟩

section Induction

/-- A relation between states that the turns keep, if every operation but the pseudo-operations keeps it. -/
structure Kept (R : State → State → Prop) : Prop where
  refl : ∀ s, R s s
  trans : ∀ s t u, R s t → R t u → R s u
  agenda : ∀ s rest, R s { s with agenda := rest }
  answer : ∀ s a, R s { s with answer := a }
  basic : ∀ i s t, isPseudo i = false → exec i s = .next t → R s t

variable {R : State → State → Prop}

theorem Kept.turn (h : Kept R) {s t : State} (e : turn s = .next t) : R s t := by
  obtain ⟨i, rest, he, hc⟩ := turn_next e
  refine h.trans _ _ _ (h.agenda s rest) (h.basic i _ _ ?_ he)
  rcases hc with ⟨hp, _⟩ | ⟨w, rfl, _⟩ | ⟨rfl, _⟩ | ⟨_, _, rfl, _⟩
  · exact phaseInstr_not_pseudo hp
  · rfl
  · rfl
  · rfl

theorem Kept.turnsWhile (h : Kept R) (p : Phase) : ∀ n s t, turnsWhile p n s = .next t → R s t
  | 0, s, t, e => by cases e; exact h.refl s
  | n + 1, s, t, e => by
    unfold Machine.turnsWhile at e
    split at e
    · obtain ⟨m, h1, h2⟩ := andThen_eq_next.1 e
      exact h.trans _ _ _ (h.turn h1) (Kept.turnsWhile h p n m t h2)
    · cases e; exact h.refl s

theorem Kept.nextWordTurns (h : Kept R) {s t : State} (e : nextWordTurns s = .next t) : R s t := by
  obtain ⟨m, h1, h2⟩ := nextWordTurns_next e
  refine h.trans _ _ _ (h.turnsWhile _ _ _ _ h1) ?_
  rcases h2 with ⟨-, u, h3, rfl | rfl⟩ | ⟨-, rfl⟩
  · exact h.turnsWhile _ _ _ _ h3
  · exact h.trans _ _ _ (h.turnsWhile _ _ _ _ h3) (h.answer u _)
  · exact h.answer m _

theorem Kept.collectTurns (h : Kept R) : ∀ k s t, collectTurns k s = .next t → R s t
  | 0, s, t, e => by cases e; exact h.refl s
  | k + 1, s, t, e => by
    obtain ⟨m, h1, h2⟩ := andThen_eq_next.1 e
    rcases afterReturn_next h2 with ⟨-, rfl⟩ | ⟨-, h2⟩
    · exact h.nextWordTurns h1
    · exact h.trans _ _ _ (h.nextWordTurns h1) (Kept.collectTurns h k m t h2)

/-- What every operation but the pseudo-operations keeps, every operation keeps. -/
theorem Kept.exec (h : Kept R) {i : Instr} {s t : State} (e : exec i s = .next t) : R s t := by
  cases hp : isPseudo i with
  | false => exact h.basic i s t hp e
  | true =>
    cases i <;> simp [isPseudo] at hp
    · exact h.nextWordTurns (inPhase_eq_next.1 e).2
    · exact h.collectTurns _ _ _ (inPhase_eq_next.1 e).2
    · obtain ⟨m1, h1, e⟩ := andThen_eq_next.1 (inPhase_eq_next.1 e).2
      obtain ⟨m2, h2, e⟩ := andThen_eq_next.1 e
      obtain ⟨m3, h3, e⟩ := andThen_eq_next.1 e
      exact h.trans _ _ _ (h.collectTurns _ _ _ h1) (h.trans _ _ _ (h.turnsWhile _ _ _ _ h2)
        (h.trans _ _ _ (h.turnsWhile _ _ _ _ h3) (h.turnsWhile _ _ _ _ e)))

end Induction

end Sys2Proof.Machine
end

