-- ==== Sys2Proof/Tests/Slice0.lean ====
section
/-!
SUPPORT. The model's own tests. Expected results are those of 95_test_vectors.md (named in each docstring) or worked
out by hand from the rules cited; then, for every statement of Certificates/Slice0/Obligations.lean that has
hypotheses, a concrete state and operands that meet them.
-/
namespace Sys2Proof.Tests
open Sys2Proof Sys2Proof.Machine

/-! ### Small states -/

/-- The reference configuration with a small frame and FIFO; the window has 16 registers, as in the vectors. -/
def small (n depth : Nat) : Config := { Config.reference with n := n, depth := depth }

/-- The window and the destination of the vectors. -/
def theWindow : Window := Window.mk 0x40000000 16
def theDest : Dest := Dest.mk (.ipv4 0x7F000001) 5005

/-- A run that has just started. -/
def started (n depth : Nat) (q : List Word) : State := State.resetWith (small n depth) q

/-- A run in a phase of `STREAMING`, with both handles open. -/
def running (n depth : Nat) (p : Phase) (q : List Word) : State :=
  { started n depth q with ph := p, win := some theWindow, txh := some theDest }

/-- The next state, if there is one. -/
def nextOf (r : Result) : Option State :=
  match r with
  | .next s => some s
  | .fault _ => none
  | .refused _ => none

/-- The refusal, if there is one. -/
def refusalOf (r : Result) : Option Refusal :=
  match r with
  | .refused e => some e
  | .next _ => none
  | .fault _ => none

/-- The fault, if there is one. -/
def faultOf (r : Result) : Option Fault :=
  match r with
  | .fault f => some f
  | .next _ => none
  | .refused _ => none

/-! ### Well-formedness: an ill-formed term for each check, refused -/

theorem test_wf_rejects_unaligned_base : (Instr.riOpen 0x40000002 16).wf Config.reference = false := by decide
theorem test_wf_rejects_occ_outside_window :
    Instr.rdOcc.wf { Config.reference with span := 7 } = false := by decide
theorem test_wf_rejects_data_outside_window :
    Instr.rdData.wf { Config.reference with span := 8 } = false := by decide
theorem test_wf_rejects_data_at_occ :
    Instr.rdData.wf { Config.reference with dataOff := 7 } = false := by decide
theorem test_wf_rejects_undef_outside_window : (Instr.rdUndef 16).wf Config.reference = false := by decide
theorem test_wf_rejects_undef_at_occ : (Instr.rdUndef 7).wf Config.reference = false := by decide
theorem test_wf_rejects_undef_at_data : (Instr.rdUndef 8).wf Config.reference = false := by decide
theorem test_wf_rejects_oob_inside_window : (Instr.rdOob 15).wf Config.reference = false := by decide
theorem test_wf_rejects_sample_outside_frame : (Instr.packIq 256 0).wf Config.reference = false := by decide
theorem test_wf_rejects_ports :
    (Instr.txOpen (Dest.mk (.ipv4 0) 0)).wf Config.reference = false ∧
    (Instr.txOpen (Dest.mk (.ipv4 0) 65536)).wf Config.reference = false := by decide
theorem test_wf_rejects_fail_statuses :
    (Instr.fail .cfgInvalid 2).wf Config.reference = false ∧
    (Instr.fail .deviceUnavailable 0).wf Config.reference = false ∧
    (Instr.fail .hostUnresolvable 0).wf Config.reference = false := by decide
theorem test_wf_rejects_fail_causes :
    (Instr.fail (.boundsAtRead 16) 1).wf Config.reference = false ∧
    (Instr.fail .sendShort 1).wf Config.reference = false ∧
    (Instr.fail .sendErr 1).wf Config.reference = false := by decide

/-! ### Decoding: words written out from 30_encoding.md rules R70, R79 and 95_test_vectors.md 2.1 -/

/-- K = 0, OFF = 0x00000007. -/
theorem test_decode_rd_occ : decodeTableWord 40 0b000000000000000000000000000000111 = some .rdOcc := by decide
/-- K = 0, OFF = 0x00000008. -/
theorem test_decode_rd_data : decodeTableWord 40 0b000000000000000000000000000001000 = some .rdData := by decide
/-- K = 0, OFF = 0x00000009, in the window of 16 registers. -/
theorem test_decode_rd_undef :
    decodeTableWord 40 0b000000000000000000000000000001001 = some (.rdUndef 9) := by decide
/-- K = 0, OFF = 0xFFFFFFFF. -/
theorem test_decode_rd_oob :
    decodeTableWord 40 0b011111111111111111111111111111111 = some (.rdOob 0xFFFFFFFF) := by decide
/-- K = 1, OFF = 0x00000007. -/
theorem test_decode_wr : decodeTableWord 40 0b100000000000000000000000000000111 = some (.wr 7 0) := by decide
/-- A write's VALUE is the four bytes after its descriptor. -/
theorem test_decode_wr_value :
    decode Config.reference .reg [0x07, 0, 0, 0, 1, 0x78, 0x56, 0x34, 0x12] = .ok (.wr 7 0x12345678, []) := by decide
/-- OFF takes its bytes in order: 0x04030201. -/
theorem test_decode_offset_bytes :
    decode Config.reference .reg [0x01, 0x02, 0x03, 0x04, 0] = .ok (.rdOob 0x04030201, []) := by decide
theorem test_decode_phases :
    decodeTableWord 8 0b000 = some .init ∧ decodeTableWord 8 0b001 = some .poll ∧
    decodeTableWord 8 0b010 = some .pop ∧ decodeTableWord 8 0b011 = some .buildFrame ∧
    decodeTableWord 8 0b100 = some .send ∧ decodeTableWord 8 0b101 = some .adv := by decide
theorem test_decode_terminal_phases : decodeTableWord 8 6 = none ∧ decodeTableWord 8 7 = none := by decide
theorem test_decode_rejects_padding :
    decode Config.reference .reg [7, 0, 0, 0, 2] = .error .padding ∧
    decode Config.reference .phase [8] = .error .padding := by decide
theorem test_decode_rejects_short :
    decode Config.reference .reg [7, 0, 0, 0] = .error .short ∧ decode Config.reference .phase [] = .error .short ∧
    decode Config.reference .reg [7, 0, 0, 0, 1, 0, 0, 0] = .error .short := by decide
theorem test_decode_rejects_patternless :
    decode Config.reference .sub [0] = .error .noPattern ∧ decode Config.reference .pseudo [0] = .error .noPattern ∧
    decode Config.reference .env [0] = .error .noPattern := by decide

/-! ### Register Interface (95_test_vectors.md 2.1) -/

/-- A span of 8 is too small for offset 8. -/
theorem test_riOpen_bounds :
    (nextOf (exec (.riOpen 0x40000000 8) (started 1 4 []))).map (fun s => (s.win, s.answer)) =
      some (none, .error .boundsAtOpen) := by decide
/-- A span of 9 is the smallest that passes. -/
theorem test_riOpen_smallest :
    (nextOf (exec (.riOpen 0x40000000 9) (started 1 4 []))).map (fun s => (s.win, s.answer)) =
      some (some (Window.mk 0x40000000 9), .opened) := by decide
/-- A full queue of depth 4 reads 4, at byte address 0x4000001C. -/
theorem test_rdOcc_full :
    (nextOf (exec .rdOcc (running 1 4 .poll [1, 2, 3, 4]))).map (fun s => (s.q, s.trace)) =
      some ([1, 2, 3, 4], [.rd 7 0x4000001C 4]) := by decide
/-- The head is returned and popped, at byte address 0x40000020. -/
theorem test_rdData_pops :
    (nextOf (exec .rdData (running 1 4 .pop [0x00010002, 0xFFFE7FFF]))).map (fun s => (s.q, s.trace)) =
      some ([0xFFFE7FFF], [.rd 8 0x40000020 0x00010002]) := by decide
/-- R9: no event follows KILL, so nothing is read. -/
theorem test_rdOcc_after_kill :
    faultOf (exec .rdOcc { running 1 4 .poll [1] with ph := .halted }) = some (.runEnded .halted) := by decide
/-- An empty queue: the ghost bit, and the queue stays empty. -/
theorem test_rdData_empty :
    (nextOf (exec .rdData (running 1 4 .pop []))).map (fun s => (s.q, s.undf)) = some ([], true) := by decide
theorem test_rdUndef_refused :
    refusalOf (exec (.rdUndef 0) (running 1 4 .poll [])) = some (.undefinedRegister 0) := by decide
/-- Offset 16 in a window of 16. -/
theorem test_rdOob_raises :
    (nextOf (exec (.rdOob 16) (running 1 4 .poll [1]))).map (fun s => (s.answer, s.trace, s.q)) =
      some (.error (.boundsAtRead 16), [], [1]) := by decide
theorem test_wr_refused :
    refusalOf (exec (.wr 7 1) (running 1 4 .poll [])) = some (.registerWrite 7 1) := by decide

/-! ### Fifo Reader (95_test_vectors.md 2.2) -/

theorem test_poll_empty :
    (nextOf (exec .poll (running 1 4 .poll []))).map (fun s => (s.ph, s.occLast)) = some (.poll, 0) := by decide
/-- 0x80000000 from an injected source counts as non-zero: all bits are tested, and there is no sign. -/
theorem test_poll_top_bit :
    (nextOf (exec .poll { running 1 4 .poll [] with source := .script [0x80000000] [] })).map
      (fun s => (s.ph, s.occLast)) = some (.pop, 0x80000000) := by decide
theorem test_pop_middle :
    (nextOf (exec .pop { running 4 4 .pop [0x33333333] with idx := 2 })).map
      (fun s => (cellAt s.wbuf 2, s.idx, s.ph)) = some (some 0x33333333, 3, .poll) := by decide
theorem test_pop_last :
    (nextOf (exec .pop { running 4 4 .pop [0x44444444] with idx := 3 })).map
      (fun s => (cellAt s.wbuf 3, s.idx, s.ph)) = some (some 0x44444444, 0, .pack) := by decide
/-- Answers 0, 0, 3, then 0xDEADBEEF: three polls, one pop. -/
theorem test_nextWord_three_polls :
    (nextOf (exec .nextWord { running 2 4 .poll [] with source := .script [0, 0, 3] [0xDEADBEEF] })).map
      (fun s => (s.answer, readsOf 7 s.trace, readsOf 8 s.trace)) =
      some (.value 0xDEADBEEF, [0, 0, 3], [0xDEADBEEF]) := by decide
/-- A zero word is a valid word, and is returned; with no word to read nothing is (R127). -/
theorem test_nextWord_zero_word_or_none :
    (nextOf (exec .nextWord { running 2 4 .poll [] with source := .script [7] [0] })).map
      (fun s => (s.answer, s.ph)) = some (.value 0, .poll) ∧
    (nextOf (exec .nextWord (running 2 4 .poll []))).map (fun s => (s.answer, s.ph)) = some (.waiting, .poll) := by
  decide

/-! ### Frame Assembler (95_test_vectors.md 2.3) -/

theorem test_packCtr_bytes :
    (nextOf (exec (.packCtr 0x12345678) (running 1 4 .pack []))).map (fun s => s.fb) =
      some [(0, 0x78), (1, 0x56), (2, 0x34), (3, 0x12)] := by decide
/-- I first, then Q, each little-endian; position 1. -/
theorem test_packIq_bytes :
    (nextOf (exec (.packIq 1 0xAABBCCDD) (running 2 4 .pack []))).map (fun s => s.fb) =
      some [(8, 0xDD), (9, 0xCC), (10, 0xBB), (11, 0xAA)] := by decide
theorem test_packIq_signs :
    (nextOf (exec (.packIq 0 0x80007FFF) (running 1 4 .pack []))).map (fun s => s.fb) =
      some [(4, 0xFF), (5, 0x7F), (6, 0x00), (7, 0x80)] := by decide
/-- Counter 0x01020304 and words 0xAABBCCDD, 0x11223344. -/
theorem test_buildFrame_two_words :
    (nextOf (exec .buildFrame { running 2 4 .pack [] with
        seq := 0x01020304, wbuf := [(0, 0xAABBCCDD), (1, 0x11223344)] })).map (fun s => (s.frame, s.ph)) =
      some ([0x04, 0x03, 0x02, 0x01, 0xDD, 0xCC, 0xBB, 0xAA, 0x44, 0x33, 0x22, 0x11], .send) := by decide
/-- The counter alone for no words, and decoding back. -/
theorem test_frame_and_back :
    frameOf 0xFFFFFFFF [] = [0xFF, 0xFF, 0xFF, 0xFF] ∧
    readFrame [0x04, 0x03, 0x02, 0x01, 0xDD, 0xCC, 0xBB, 0xAA, 0x44, 0x33, 0x22, 0x11] =
      some (0x01020304, [0xAABBCCDD, 0x11223344]) := by decide

/-! ### Frame output (95_test_vectors.md 2.4) -/

theorem test_txOpen_ok :
    (nextOf (exec (.txOpen theDest) { started 1 4 [] with win := some theWindow })).map (fun s => s.txh) =
      some (some theDest) := by decide
theorem test_txOpen_unresolvable :
    (nextOf (exec (.txOpen theDest) { started 1 4 [] with
        win := some theWindow, txAnswer := .hostUnresolvable })).map (fun s => (s.txh, s.trace)) =
      some (none, [.openTx theDest (some .hostUnresolvable)]) := by decide

/-- The source's frame, in phase `SEND` with N = 1: counter 0, word 0x00010002. -/
def sending (answers : List SinkAnswer) : State :=
  { running 1 4 .send [] with
    wbuf := [(0, 0x00010002)]
    fb := putCells [] 0 [0, 0, 0, 0, 2, 0, 1, 0]
    sink := answers
    trace := [.rd 7 0x4000001C 1, .rd 8 0x40000020 0x00010002] }

theorem test_send_ok :
    (nextOf (exec .send (sending [.ok]))).map (fun s => (s.ph, s.trace.drop 2)) =
      some (.adv, [.send theDest [0, 0, 0, 0, 2, 0, 1, 0] .ok]) := by decide
/-- A short acceptance of all but one byte is reported, and the phase still moves. -/
theorem test_send_short :
    (nextOf (exec .send (sending [.short 7]))).map (fun s => (s.ph, s.seq, s.trace.drop 2)) =
      some (.adv, 0, [.send theDest [0, 0, 0, 0, 2, 0, 1, 0] (.short 7), .reportTransient]) := by decide

/-! ### Acquisition Loop (95_test_vectors.md 2.5 and part 3) -/

/-- P1: the events of a successful start. -/
theorem test_init_events :
    (nextOf (exec .init (started 1 4 []))).map (fun s => (s.ph, s.trace)) =
      some (.poll, [.openRi 0x40000000 16 none, .openTx theDest none, .status]) := by decide
/-- P5 (a): port 0. -/
theorem test_init_port_zero :
    (nextOf (exec .init { started 1 4 [] with cfg := { small 1 4 with portArg := some 0 } })).map
      (fun s => (s.ph, s.win, s.trace)) = some (.failed, none, [.usage, .exit 1]) := by decide
/-- 2.2: with Q = [a, b, c] and N = 3, three polls, not one. -/
theorem test_collect_one_word_per_poll :
    (nextOf (exec .collect (running 3 4 .poll [10, 20, 30]))).map (fun s => s.trace.map (fun e =>
      match e with | .rd o _ v => (o, v) | _ => (0, 0))) =
      some [(7, 3), (8, 10), (7, 2), (8, 20), (7, 1), (8, 30)] := by decide
theorem test_adv_wraps :
    (nextOf (exec .adv { running 1 4 .adv [] with seq := 0xFFFFFFFF })).map (fun s => (s.seq, s.ph)) =
      some (0, .poll) := by decide
/-- R186: N = 1, c = 0, Q = [0x00010002]. -/
theorem test_cycle_source_scenario :
    (nextOf (exec .cycle { running 1 4 .poll [0x00010002] with sink := [.ok] })).map
      (fun s => (s.seq, s.trace)) =
      some (1, [.rd 7 0x4000001C 1, .rd 8 0x40000020 0x00010002,
        .send theDest [0, 0, 0, 0, 2, 0, 1, 0] .ok]) := by decide
theorem test_fail_exits :
    (nextOf (exec (.fail .permissionDenied 3) (started 1 4 []))).map (fun s => (s.ph, s.trace)) =
      some (.failed, [.failureReport .permissionDenied, .exit 3]) := by decide
/-- P7: KILL in the middle of a frame leaves the FIFO as it is. -/
theorem test_kill_halts :
    (nextOf (exec .kill { running 2 4 .poll [5] with idx := 1 })).map (fun s => (s.ph, s.q)) =
      some (.halted, [5]) := by decide
/-- DEPTH = 2: the second word fits behind the first. -/
theorem test_push_appends :
    (nextOf (exec (.push 9) (running 1 2 .poll [4]))).map (fun s => (s.q, s.ovf)) = some ([4, 9], false) := by decide
/-- DEPTH = 2: a third word overflows. -/
theorem test_push_overflows :
    (nextOf (exec (.push 9) (running 1 2 .poll [4, 5]))).map (fun s => s.ovf) = some true := by decide

/-- R228: another caller's read of DATA and of OCC, at offsets 8 and 7, takes nothing from the FIFO. -/
theorem test_second_consumer_is_refused :
    refusalOf (step { running 1 4 .poll [1] with agenda := [.access [8, 0, 0, 0, 0]] }) = some .secondConsumer ∧
    refusalOf (step { running 1 4 .poll [1] with agenda := [.access [7, 0, 0, 0, 0]] }) = some .secondConsumer := by
  decide

/-! ### The host's questions -/

theorem test_first_step_runs_label_0 : (nextOf (step (State.reset.withFetchWord 8 0))).isSome = true := by decide
theorem test_first_step_runs_label_1 : (nextOf (step (State.reset.withFetchWord 8 1))).isSome = true := by decide
theorem test_first_step_runs_label_2 : (nextOf (step (State.reset.withFetchWord 8 2))).isSome = true := by decide
theorem test_first_step_runs_label_3 : (nextOf (step (State.reset.withFetchWord 8 3))).isSome = true := by decide
theorem test_first_step_runs_label_4 : (nextOf (step (State.reset.withFetchWord 8 4))).isSome = true := by decide
theorem test_first_step_runs_label_5 : (nextOf (step (State.reset.withFetchWord 8 5))).isSome = true := by decide
theorem test_first_step_reads_occ :
    (nextOf (step (State.reset.withFetchWord 40 7))).map (fun s => s.answer) = some (.value 0) := by decide
theorem test_first_step_reads_outside :
    (nextOf (step (State.reset.withFetchWord 40 16))).map (fun s => s.answer) =
      some (.error (.boundsAtRead 16)) := by decide
theorem test_first_step_write_is_refused :
    refusalOf (step (State.reset.withFetchWord 40 0x100000007)) = some (.registerWrite 7 0) := by decide

/-! ### Witnesses: states and operands that meet the hypotheses of each statement

Named after the statement; where a statement has several clauses, there is one witness for each, at the values where
the clauses meet. -/

theorem witness_DecodeEncodeAgree :
    (Instr.riOpen 0x40000000 16).wf (small 1 4) = true ∧ Instr.rdOcc.wf (small 1 4) = true ∧
    Instr.rdData.wf (small 1 4) = true ∧ (Instr.rdUndef 15).wf (small 1 4) = true ∧
    (Instr.rdOob 16).wf (small 1 4) = true ∧ (Instr.wr 7 1).wf (small 1 4) = true ∧
    (Instr.packIq 0 1).wf (small 1 4) = true ∧ (Instr.txOpen theDest).wf (small 1 4) = true ∧
    (Instr.fail .cfgInvalid 1).wf (small 1 4) = true := by decide

theorem witness_DecodedIsWellFormedAndReencodes :
    decode (small 1 4) .phase [1, 9] = .ok (.poll, [9]) ∧
    decode (small 1 4) .reg [16, 0, 0, 0, 0, 9] = .ok (.rdOob 16, [9]) := by decide

/-- Offsets 0, 6, 7, 8, 9, 15, 16 of a window of 16: each row of the table, and the values where rows meet. -/
theorem witness_DescriptorSelectsByFirstMatchingRow :
    [0, 6, 7, 8, 9, 15, 16, 0xFFFFFFFF].map (selectRead (small 1 4)) =
      [.rdUndef 0, .rdUndef 6, .rdOcc, .rdData, .rdUndef 9, .rdUndef 15, .rdOob 16, .rdOob 0xFFFFFFFF] ∧
    offsetsInside (small 1 4) (small 1 4).span = true ∧ (small 1 4).occOff ≠ (small 1 4).dataOff := by decide

theorem witness_StepRunsTheDecodedOperation :
    decode (small 1 4) .phase (phaseBytes (running 1 4 .poll []).ph) = .ok (.poll, []) ∧
    (running 1 4 .poll []).agenda = [] ∧
    { running 1 4 .poll [] with agenda := [.seq, .kill] }.agenda = .seq :: [.kill] ∧
    { running 1 4 .poll [] with agenda := [.push 5] }.agenda = .push 5 :: [] ∧
    decode (busCfg (running 1 4 .poll [])) .reg [7, 0, 0, 0, 0] = .ok (.rdOcc, []) ∧
    decode (busCfg (running 1 4 .poll [])) .reg [8, 0, 0, 0, 0] = .ok (.rdData, []) ∧
    decode (busCfg (running 1 4 .poll [])) .reg [16, 0, 0, 0, 0] = .ok (.rdOob 16, []) ∧
    { running 1 4 .poll [] with agenda := [.access [7]] }.agenda = .access [7] :: [] ∧
    decode (busCfg (running 1 4 .poll [])) .reg [7] = .error .short := by decide

/-- A step from each phase that has one, and one of each other kind of turn. -/
theorem witness_PhaseMovesAlongTheTable :
    (nextOf (step (started 1 4 []))).isSome = true ∧
    (nextOf (step { started 1 4 [] with riAnswer := .deviceUnavailable })).isSome = true ∧
    (nextOf (step (running 1 4 .poll []))).isSome = true ∧ (nextOf (step (running 1 4 .poll [1]))).isSome = true ∧
    (nextOf (step (running 1 4 .pop [1]))).isSome = true ∧ (nextOf (step (running 2 4 .pop [1]))).isSome = true ∧
    (nextOf (step { running 1 4 .pack [] with wbuf := [(0, 1)] })).isSome = true ∧
    (nextOf (step (sending [.err]))).isSome = true ∧ (nextOf (step (running 1 4 .adv []))).isSome = true ∧
    (nextOf (step { running 1 4 .poll [] with agenda := [.push 1] })).isSome = true ∧
    (nextOf (step { running 1 4 .poll [] with agenda := [.kill] })).isSome = true ∧
    (nextOf (step { running 1 4 .poll [] with agenda := [.access [16, 0, 0, 0, 0]] })).isSome = true := by decide

theorem witness_StreamingHasNoProgrammedExit :
    (running 1 4 .poll []).ph.streaming = true ∧ (nextOf (step (running 1 4 .poll []))).isSome = true ∧
    (nextOf (step { running 1 4 .poll [] with agenda := [.kill] })).map (fun s => s.ph) = some .halted := by decide

/-- A POP on the sequencer's turn, listed and not, and a step that reads nothing through DATA. -/
theorem witness_OnlyTheSequencerPops :
    (running 1 4 .pop [1]).cfg.occOff ≠ (running 1 4 .pop [1]).cfg.dataOff ∧
    (nextOf (step (running 1 4 .pop [1]))).map popped = some [1] ∧
    (nextOf (step { running 1 4 .pop [1] with agenda := [.seq] })).map popped = some [1] ∧
    (nextOf (step { running 1 4 .pop [1] with agenda := [.push 2] })).map popped = some [] := by decide

theorem witness_TerminalPhasesHaveNoStep :
    { started 1 4 [] with ph := .failed }.ph.terminal = true ∧
    { started 1 4 [] with ph := .halted }.ph.terminal = true ∧
    { started 1 4 [] with ph := .failed, agenda := [.seq] }.agenda = .seq :: [] := by decide

theorem witness_OperationsOutsideTheirPhaseAreRefused :
    (running 1 4 .poll []).ph ≠ .init ∧ (running 1 4 .pop []).ph ≠ .poll ∧ (running 1 4 .poll []).ph ≠ .pop ∧
    (running 1 4 .send []).ph ≠ .pack ∧ (running 1 4 .adv []).ph ≠ .send ∧ (running 1 4 .send []).ph ≠ .adv ∧
    { started 1 4 [] with win := some theWindow }.win ≠ none ∧ (started 1 4 []).win = none ∧
    (running 1 4 .poll []).txh ≠ none := by decide

theorem witness_MissingHandlesAndBadIndicesStop :
    (started 1 4 []).win = none ∧ { started 1 4 [] with ph := .poll }.ph = .poll ∧
    { running 1 4 .send [] with txh := none }.txh = none ∧
    (small 2 4).n ≤ { running 2 4 .pop [] with idx := 2 }.idx ∧ (running 2 4 .pack []).cfg.n ≤ 2 ∧
    (running 1 4 .poll []).win = some theWindow ∧ (15 : Word).toNat < theWindow.span ∧
    { running 1 4 .poll [] with ph := .halted }.win ≠ none ∧
    { running 1 4 .poll [] with ph := .halted }.ph.terminal = true ∧
    { running 1 4 .poll [] with ph := .failed }.ph.terminal = true := by decide

/-- Spans 8 and 9 are the two sides of the check. -/
theorem witness_RiOpenChecksThenOpens :
    (started 1 4 []).ph = .init ∧ (started 1 4 []).win = none ∧
    ¬ ((started 1 4 []).cfg.occOff.toNat < 8 ∧ (started 1 4 []).cfg.dataOff.toNat < 8) ∧
    ((started 1 4 []).cfg.occOff.toNat < 9 ∧ (started 1 4 []).cfg.dataOff.toNat < 9) ∧
    riCause { started 1 4 [] with riAnswer := .mappingRejected }.riAnswer = some .mappingRejected ∧
    (started 1 4 []).riAnswer = .ok := by decide

theorem witness_OccReadReturnsTheQueueLength :
    (running 1 4 .poll []).win = some theWindow ∧ (running 1 4 .poll []).ph.terminal = false ∧ (running 1 4 .poll []).source = .fifo ∧
    { running 1 4 .poll [] with source := .script [5] [] }.source = .script [5] [] ∧
    { running 1 4 .poll [] with source := .script [] [] }.source = .script [] [] := by decide

theorem witness_DataReadPopsTheHead :
    (running 1 4 .pop [1, 2]).ph.terminal = false ∧ (running 1 4 .pop [1, 2]).win = some theWindow ∧ (running 1 4 .pop [1, 2]).source = .fifo ∧
    (running 1 4 .pop [1, 2]).q = 1 :: [2] ∧ (running 1 4 .pop []).q = [] ∧
    { running 1 4 .pop [] with source := .script [] [5] }.source = .script [] [5] ∧
    { running 1 4 .pop [] with source := .script [3] [] }.source = .script [3] [] := by decide

theorem witness_OutOfWindowReadRaisesBoundsError :
    (running 1 4 .poll []).win = some theWindow ∧ theWindow.span ≤ (16 : Word).toNat ∧
    theWindow.span ≤ (0xFFFFFFFF : Word).toNat := by decide

theorem witness_EveryReadIsOfOccOrData :
    (nextOf (exec .collect (running 1 4 .poll [3]))).map (fun s => s.trace) =
      some [.rd 7 0x4000001C 1, .rd 8 0x40000020 3] := by decide

/-- The last word of a frame, and one before it. -/
theorem witness_PollAndPopAreOneReadEach :
    (running 2 4 .poll [1]).win = some theWindow ∧ (running 2 4 .poll [1]).ph = .poll ∧
    (running 2 4 .pop [1]).win = some theWindow ∧ (running 2 4 .pop [1]).ph = .pop ∧
    (running 2 4 .pop [1]).idx < (running 2 4 .pop [1]).cfg.n ∧ { running 2 4 .pop [1] with idx := 1 }.idx < 2 := by
  decide

/-- Zero and one word waiting. -/
theorem witness_PollReadsOnceAndDecides :
    (running 1 4 .poll []).ph = .poll ∧ (running 1 4 .poll []).win = some theWindow ∧
    (running 1 4 .poll []).source = .fifo ∧ (0 : Word) = BitVec.ofNat 32 (running 1 4 .poll []).q.length ∧
    (1 : Word) = BitVec.ofNat 32 (running 1 4 .poll [7]).q.length := by decide

theorem witness_PollDecidesOnAnyInjectedAnswer :
    { running 1 4 .poll [] with source := .script [0, 1] [] }.ph = .poll ∧
    { running 1 4 .poll [] with source := .script [0, 1] [] }.win = some theWindow ∧
    { running 1 4 .poll [] with source := .script [0, 1] [] }.source = .script (0 :: [1]) [] ∧
    { running 1 4 .poll [] with source := .script [0xFFFFFFFF] [] }.source = .script (0xFFFFFFFF :: []) [] := by decide

/-- The last word of a frame, one before it, and an empty queue. -/
theorem witness_PopStoresTheWord :
    (running 2 4 .pop [1]).ph = .pop ∧ (running 2 4 .pop [1]).win = some theWindow ∧
    (running 2 4 .pop [1]).idx < (running 2 4 .pop [1]).cfg.n ∧ (running 2 4 .pop [1]).idx ≠ 2 - 1 ∧
    { running 2 4 .pop [1] with idx := 1 }.idx < 2 ∧ { running 2 4 .pop [1] with idx := 1 }.idx = 2 - 1 ∧
    (running 2 4 .pop [1]).source = .fifo ∧ (running 2 4 .pop []).q = [] ∧
    { running 2 4 .pop [] with source := .script [] [5] }.source = .script [] [5] ∧
    { running 2 4 .pop [] with source := .script [3] [] }.source = .script [3] [] := by decide

/-- k = 2. -/
theorem witness_NextWordReturnsAfterTheFirstNonZeroPoll :
    { running 1 4 .poll [] with source := .script [0, 0, 3] [9] }.ph = .poll ∧
    { running 1 4 .poll [] with source := .script [0, 0, 3] [9] }.win = some theWindow ∧
    { running 1 4 .poll [] with source := .script [0, 0, 3] [9] }.agenda = [] ∧
    { running 1 4 .poll [] with source := .script [0, 0, 3] [9] }.idx < 1 ∧ (3 : Word) ≠ 0 ∧
    { running 1 4 .poll [] with source := .script [0, 0, 3] [9] }.source =
      .script (List.replicate 2 0 ++ 3 :: []) (9 :: []) := by decide

/-- One word waiting, and more than one. -/
theorem witness_NextWordTakesTheHeadOfTheQueue :
    (running 2 4 .poll [5]).ph = .poll ∧ (running 2 4 .poll [5]).win = some theWindow ∧
    (running 2 4 .poll [5]).source = .fifo ∧ (running 2 4 .poll [5]).agenda = [] ∧
    (running 2 4 .poll [5]).idx < (running 2 4 .poll [5]).cfg.n ∧ (running 2 4 .poll [5]).q = 5 :: [] ∧
    (running 2 4 .poll [5]).q.length < 2 ^ 32 ∧ (running 2 4 .poll [5, 6]).q = 5 :: [6] := by decide

/-- With a word, with none, and with a KILL between the poll and the pop. -/
theorem witness_NextWordReturnsOnlyAWordRead :
    (running 1 4 .poll [5]).cfg.occOff ≠ (running 1 4 .poll [5]).cfg.dataOff ∧
    (nextOf (exec .nextWord (running 1 4 .poll [5]))).map (fun s => s.answer) = some (.value 5) ∧
    (nextOf (exec .nextWord (running 1 4 .poll []))).map (fun s => s.answer) = some .waiting ∧
    (nextOf (exec .nextWord { running 1 4 .poll [5] with agenda := [.seq, .kill] })).map (fun s => s.answer) =
      some .waiting := by decide

/-- k = 2. -/
theorem witness_NextWordWaitsForTheProducer :
    (running 1 4 .poll []).ph = .poll ∧ (running 1 4 .poll []).win = some theWindow ∧
    (running 1 4 .poll []).source = .fifo ∧ (running 1 4 .poll []).q = [] ∧ (running 1 4 .poll []).idx < 1 ∧
    1 ≤ (running 1 4 .poll []).cfg.depth ∧
    { running 1 4 .poll [] with agenda := [.seq, .seq, .push 6] }.agenda =
      List.replicate 2 .seq ++ [.push 6] := by decide

theorem witness_EmptyQueueIsPolledForEver :
    (running 1 4 .poll []).ph = .poll ∧ (running 1 4 .poll []).win = some theWindow ∧
    (running 1 4 .poll []).source = .fifo ∧ (running 1 4 .poll []).q = [] ∧
    (running 1 4 .poll []).agenda = [] ∧ (running 1 4 .poll []).idx < (running 1 4 .poll []).cfg.n := by decide

theorem witness_PackCtrWritesTheCounter : (running 1 4 .pack []).ph = .pack := by decide

/-- The first and the last position of a frame of two words. -/
theorem witness_PackIqWritesTheSamplePair :
    (running 2 4 .pack []).ph = .pack ∧ 0 < (running 2 4 .pack []).cfg.n ∧ 1 < (running 2 4 .pack []).cfg.n := by decide

theorem witness_BuildFrameWritesTheWholeFrame :
    { running 1 4 .pack [] with wbuf := [(0, 1)] }.ph = .pack ∧
    { running 1 4 .pack [] with wbuf := [(0, 1)] }.wordsHeld = true ∧
    (running 1 4 .pack []).wordsHeld = false ∧ frameLen (small 1 4) = 8 ∧
    cellAt { running 1 4 .pack [] with wbuf := [(0, 1)] }.wbuf 0 = some 1 := by decide

theorem witness_FrameLayoutByteByByte :
    ([5, 6] : List Word)[1]? = some 6 ∧ (List.replicate 256 (0 : Word)).length = 256 :=
  ⟨rfl, List.length_replicate⟩

theorem witness_ReceiverRecoversCounterAndWords :
    (∀ j, (fun j => ((frameOf 1 [5]).getD j 0).toNat) j = ((frameOf 1 [5]).getD j 0).toNat) ∧
    ([5] : List Word)[0]? = some 5 := ⟨fun _ => rfl, rfl⟩

theorem witness_PackingOrderIsNotObservable :
    { running 2 4 .pack [] with wbuf := [(0, 1), (1, 2)] }.ph = .pack ∧
    { running 2 4 .pack [] with wbuf := [(0, 1), (1, 2)] }.wordsHeld = true ∧
    cellsWf { running 2 4 .pack [] with wbuf := [(0, 1), (1, 2)] }.fb = true ∧
    [Instr.packIq 1 2, .packCtr 0, .packIq 0 1].Perm
      (.packCtr { running 2 4 .pack [] with wbuf := [(0, 1), (1, 2)] }.seq :: (List.range (small 2 4).n).map
        (fun i => .packIq i ({ running 2 4 .pack [] with wbuf := [(0, 1), (1, 2)] }.wordAt i))) := by decide

theorem witness_TxOpenOpensTheSink :
    { started 1 4 [] with win := some theWindow }.ph = .init ∧
    { started 1 4 [] with win := some theWindow }.win = some theWindow ∧
    { started 1 4 [] with win := some theWindow }.txh = none ∧ (started 1 4 []).txAnswer = .ok ∧
    txCause .socketUnavailable = some .socketUnavailable := by decide

/-- The three kinds of answer, with the largest short acceptance. -/
theorem witness_SendHandsOverTheFrameOnce :
    (sending [.ok]).ph = .send ∧ (sending [.ok]).txh = some theDest ∧ (sending [.ok]).sink = .ok :: [] ∧
    (sending [.short 7]).sink = .short 7 :: [] ∧ 7 < frameLen (sending [.short 7]).cfg ∧
    (sending [.err]).sink = .err :: [] ∧ frameLen (sending [.ok]).cfg ≤ (sending [.ok]).cfg.maxMsg := by decide

/-- A frame that just fits, and one that does not. -/
theorem witness_SendAnswerIsAlwaysLegal :
    (sending []).ph = .send ∧ (sending []).txh = some theDest ∧
    ¬ ({ small 1 4 with maxMsg := 8 } : Config).maxMsg < frameLen { small 1 4 with maxMsg := 8 } ∧
    ({ small 1 4 with maxMsg := 7 } : Config).maxMsg < frameLen { small 1 4 with maxMsg := 7 } := by decide

theorem witness_SendAnswerReachesOnlyTheReport :
    (nextOf (exec .send { sending [] with sink := .ok :: [] })).isSome = true ∧
    (nextOf (exec .send { sending [] with sink := .err :: [] })).isSome = true := by decide

theorem witness_CounterAdvancesAfterEverySend :
    (sending [.err]).ph = .send ∧ (sending [.err]).txh = some theDest ∧ (sending [.err]).agenda = [] := by decide

theorem witness_InitOpensThenStreamsOrFails_ok :
    (started 1 4 []).ph = .init ∧ destOf (started 1 4 []).cfg = some theDest ∧
    (started 1 4 []).cfg.occOff.toNat < (started 1 4 []).cfg.span ∧
    (started 1 4 []).cfg.dataOff.toNat < (started 1 4 []).cfg.span ∧ (started 1 4 []).riAnswer = .ok ∧
    (started 1 4 []).txAnswer = .ok := by decide

/-- Ports 0 and 65536, a missing argument, a span of 8, and a refusal of each open. -/
theorem witness_InitOpensThenStreamsOrFails_failures :
    (started 1 4 []).ph = .init ∧ destOf { small 1 4 with portArg := some 0 } = none ∧
    destOf { small 1 4 with portArg := some 65536 } = none ∧ destOf { small 1 4 with addrArg := none } = none ∧
    destOf (small 1 4) = some theDest ∧
    ¬ (({ small 1 4 with span := 8 } : Config).occOff.toNat < 8 ∧
      ({ small 1 4 with span := 8 } : Config).dataOff.toNat < 8) ∧
    riCause .permissionDenied = some .permissionDenied ∧ txCause .addressMalformed = some .addressMalformed := by decide

theorem witness_AdvIncrementsModulo :
    (running 1 4 .adv []).ph = .adv ∧ (running 1 4 .poll [1]).ph ≠ .init ∧
    (nextOf (exec .nextWord (running 1 4 .poll [1]))).isSome = true ∧
    (nextOf (exec .cycle { running 1 4 .poll [1] with sink := [.ok] })).map (fun s => s.seq) = some 1 := by decide

theorem witness_FailReportsAndExits :
    (started 1 4 []).ph = .init ∧ (Instr.fail .cfgInvalid 1).wf (small 1 4) = true ∧
    (Instr.fail .boundsAtOpen 255).wf (small 1 4) = true ∧ (Instr.fail .cfgInvalid 0).wf (small 1 4) = false := by decide

theorem witness_KillHalts :
    (started 1 4 []).ph ≠ .failed ∧ (started 1 4 []).ph ≠ .halted ∧
    { started 1 4 [] with ph := .failed }.ph = .failed ∧ { started 1 4 [] with ph := .halted }.ph = .halted := by decide

/-- One word short of full, and full. -/
theorem witness_PushAppendsOrOverflows :
    (running 1 2 .poll [1]).q.length < (running 1 2 .poll [1]).cfg.depth ∧
    (running 1 2 .poll [1, 2]).cfg.depth ≤ (running 1 2 .poll [1, 2]).q.length := by decide

theorem witness_CollectTakesTheNextWords :
    (running 2 4 .poll [1, 2]).ph = .poll ∧ (running 2 4 .poll [1, 2]).idx = 0 ∧
    (running 2 4 .poll [1, 2]).win = some theWindow ∧ (running 2 4 .poll [1, 2]).source = .fifo ∧
    (running 2 4 .poll [1, 2]).agenda = [] ∧ 1 ≤ (running 2 4 .poll [1, 2]).cfg.n ∧
    (running 2 4 .poll [1, 2]).cfg.n ≤ (running 2 4 .poll [1, 2]).q.length ∧
    (running 2 4 .poll [1, 2]).q.length < 2 ^ 32 := by decide

theorem witness_CycleSendsOneFrame :
    { running 2 4 .poll [1, 2] with sink := [.short 11] }.ph = .poll ∧
    { running 2 4 .poll [1, 2] with sink := [.short 11] }.idx = 0 ∧
    { running 2 4 .poll [1, 2] with sink := [.short 11] }.win = some theWindow ∧
    { running 2 4 .poll [1, 2] with sink := [.short 11] }.txh = some theDest ∧
    { running 2 4 .poll [1, 2] with sink := [.short 11] }.source = .fifo ∧
    { running 2 4 .poll [1, 2] with sink := [.short 11] }.agenda = [] ∧
    1 ≤ (small 2 4).n ∧ (small 2 4).n ≤ (running 2 4 .poll [1, 2]).q.length ∧
    { running 2 4 .poll [1, 2] with sink := [.short 11] }.sink = .short 11 :: [] ∧ 11 < frameLen (small 2 4) ∧
    frameLen (small 2 4) ≤ (small 2 4).maxMsg := by decide

/-- The invariant of the loop, in phase `SEND`: the word popped is in `WBUF` and its frame in `FB`. -/
theorem sending_inv : LoopInv (sending [.err]) where
  oneWord := by decide
  offsets := by decide
  window := by rintro w ⟨⟩; decide
  sinkDest := by rintro d ⟨⟩; decide
  streaming := by decide
  index := by decide
  collected := by decide
  packed := by decide
  written := by decide

theorem sending_stream : FrameStream (sending [.err]) where
  fresh := by decide
  advSent := by decide
  counter := by decide
  count := by decide
  enough := by decide
  frames := by
    intro j f h
    simp [sent, framesOf, sending] at h

theorem witness_StreamingHasNoProgrammedExit_goes_on :
    LoopInv (sending [.err]) ∧ (sending [.err]).ph.streaming = true ∧
    ∀ bytes, (sending [.err]).agenda.head? ≠ some (.access bytes) :=
  ⟨sending_inv, by decide, fun _ => by simp [sending, running, started, State.resetWith]⟩

theorem witness_StreamingInvariantIsKept :
    LoopInv (sending [.err]) ∧ (nextOf (step (sending [.err]))).isSome = true := ⟨sending_inv, by decide⟩

theorem witness_FramesFollowTheStream :
    LoopInv (sending [.err]) ∧ FrameStream (sending [.err]) ∧ (nextOf (step (sending [.err]))).isSome = true :=
  ⟨sending_inv, sending_stream, by decide⟩

theorem witness_SampleOrderIsKept :
    (running 1 4 .poll [4, 5]).cfg.occOff ≠ (running 1 4 .poll [4, 5]).cfg.dataOff ∧
    (running 1 4 .poll [4, 5]).source = .fifo ∧ SampleFlow [4, 5] (running 1 4 .poll [4, 5]) ∧
    (nextOf (exec .nextWord (running 1 4 .poll [4, 5]))).isSome = true :=
  ⟨by decide, rfl, fun _ _ => by decide, by decide⟩

theorem witness_PollThenPopIsSafe :
    PopSafe (running 1 4 .pop [1]) ∧ (nextOf (step (running 1 4 .pop [1]))).isSome = true :=
  ⟨{ fifo := rfl
     depth := by decide
     queue := by decide
     safe := by decide }, by decide⟩

theorem witness_InvariantsHoldAtReset :
    Admissible (small 1 2) ∧ ([1, 2] : List Word).length ≤ (small 1 2).depth := by
  unfold Admissible; decide

theorem witness_QueueNeverExceedsDepth :
    (running 1 2 .poll [1]).q.length ≤ (running 1 2 .poll [1]).cfg.depth ∧
    (nextOf (exec (.push 3) (running 1 2 .poll [1]))).isSome = true := by decide

theorem witness_ConfigurationNeverChanges : (nextOf (exec .init (started 1 4 []))).isSome = true := by decide

theorem witness_HandlesAreWrittenInInitOnly :
    (running 1 4 .poll [1]).ph ≠ .init ∧ (nextOf (exec .collect (running 1 4 .poll [1]))).isSome = true := by decide

theorem witness_BuffersKeepCanonicalForm :
    CellsOk { sending [] with ph := .pack } ∧ (nextOf (exec (.packCtr 1) { sending [] with ph := .pack })).isSome = true :=
  ⟨⟨by decide, by decide⟩, by decide⟩

end Sys2Proof.Tests
end

section
/-!
PROOFS. The configuration is never written (00_scope.md R2, 20_memory.md R59): no operation that is one step writes it,
and the pseudo-operations are made of such steps.
-/
namespace Sys2Proof.Machine

/-- R2: the next state of each operation that is one step, as its inversion lemma gives it, lists no write of `cfg`. -/
theorem exec_cfg_of_not_pseudo {i : Instr} {s t : State} (hi : isPseudo i = false) (h : exec i s = .next t) :
    t.cfg = s.cfg := by
  cases i with
  | nextWord | collect | cycle => cases hi
  | rdUndef | wr => cases h
  | riOpen => obtain ⟨-, -, _, _, _, rfl, -⟩ := execRiOpen_next h; rfl
  | rdOcc => obtain ⟨-, _, _, _, _, -, rfl, -⟩ := execRdOcc_next h; rfl
  | rdData => obtain ⟨-, _, _, _, _, _, _, -, rfl, -⟩ := execRdData_next h; rfl
  | rdOob => obtain ⟨_, -, -, rfl⟩ := execRdOob_next h; rfl
  | poll => obtain ⟨-, _, _, _, _, -, rfl, -⟩ := execPoll_next h; rfl
  | pop => obtain ⟨-, -, _, _, _, _, _, _, -, rfl, -⟩ := execPop_next h; rfl
  | packCtr => obtain ⟨-, rfl⟩ := execPackCtr_next h; rfl
  | packIq => obtain ⟨-, -, rfl⟩ := execPackIq_next h; rfl
  | buildFrame => obtain ⟨-, rfl⟩ := execBuildFrame_next h; rfl
  | txOpen => obtain ⟨-, -, -, _, _, _, rfl, -⟩ := execTxOpen_next h; rfl
  | send => obtain ⟨-, _, _, _, _, -, rfl⟩ := execSend_next h; rfl
  | init =>
    obtain ⟨-, ⟨-, _, -, rfl⟩ | ⟨-, _, _, _, rfl, -⟩⟩ := execInit_next h
    · rfl
    · rfl
  | adv => obtain ⟨-, rfl⟩ := execAdv_next h; rfl
  | fail => obtain ⟨-, -, -, rfl⟩ := execFail_next h; rfl
  | kill => obtain ⟨-, rfl⟩ := execKill_next h; rfl
  | push => obtain ⟨_, _, _, rfl, -⟩ := execPush_next h; rfl

/-- Having the same configuration is a relation that turns keep. -/
theorem kept_cfg : Kept (fun s t : State => t.cfg = s.cfg) where
  refl _ := rfl
  trans _ _ _ hst htu := htu.trans hst
  agenda _ _ := rfl
  answer _ _ := rfl
  basic _ _ _ := exec_cfg_of_not_pseudo

/-- Settles O55: what the operations that are one step keep, the pseudo-operations keep. -/
theorem configurationNeverChanges : Obligations.ConfigurationNeverChanges := by
  intro i s t h
  exact kept_cfg.exec h

end Sys2Proof.Machine
end

section
/-!
PROOFS. The step: it is the turn of the system (45_acquisition_loop.md R181, R196), it runs the operation that is decoded
or listed, and what the nine operations a turn can run keep, every step keeps.
-/
namespace Sys2Proof.Machine

/-- R70: the bytes of a register access select a write or one of the four reads. -/
theorem decodeReg_selects {c : Config} {bytes rest : List Byte} {i : Instr} (h : decodeReg c bytes = .ok (i, rest)) :
    (∃ off value, i = .wr off value) ∨ i = .rdOcc ∨ i = .rdData ∨ (∃ off, i = .rdUndef off) ∨
      ∃ off, i = .rdOob off := by
  unfold decodeReg at h
  split at h
  · split at h
    · unfold decodeWrite at h
      split at h
      · cases h; simp
      · cases h
    · split at h
      · cases h; unfold selectRead; split_ifs <;> simp
      · cases h
  · cases h

theorem decodePhase_phaseBytes (c : Config) (p : Phase) :
    decode c .phase (phaseBytes p) =
      (match phaseInstr p with | some i => .ok (i, []) | none => .error .noOperation) := by
  cases p <;> rfl

/-- R228: a call by another caller runs the operation its bytes select, but is refused where that reads the FIFO. -/
theorem step_of_access {s : State} {bytes tail : List Byte} {rest : List Turn} {i : Instr}
    (ha : s.agenda = .access bytes :: rest) (hd : decode (busCfg s) .reg bytes = .ok (i, tail)) :
    step s = if i = .rdOcc ∨ i = .rdData then .refused .secondConsumer else exec i { s with agenda := rest } := by
  by_cases hi : i = .rdOcc ∨ i = .rdData <;> simp [step, fetch, ha, hd, consumes, hi]

/-- R81: bytes that select no operation are refused. -/
theorem step_of_undecodable {s : State} {bytes : List Byte} {rest : List Turn} {e : DecodeError}
    (ha : s.agenda = .access bytes :: rest) (hd : decode (busCfg s) .reg bytes = .error e) :
    step s = .refused (.undecodable e) := by
  simp [step, fetch, ha, hd]

/-- What the step makes of a call by another caller is the turn `accessTurn`. -/
theorem step_eq_accessTurn {s : State} {bytes : List Byte} {rest : List Turn} (ha : s.agenda = .access bytes :: rest) :
    step s = accessTurn bytes rest s := by
  unfold accessTurn
  cases hd : decodeReg (busCfg s) bytes with
  | error e => exact step_of_undecodable ha hd
  | ok p =>
    rw [step_of_access (i := p.1) (tail := p.2) ha hd]
    obtain ⟨i, tail⟩ := p
    rcases decodeReg_selects hd with ⟨off, value, rfl⟩ | rfl | rfl | ⟨off, rfl⟩ | ⟨off, rfl⟩ <;> simp [exec]

/-- What the step makes of a turn of the sequencer. -/
theorem step_sequencer {s : State} {rest : List Turn} (ha : s.agenda = [] ∧ rest = [] ∨ s.agenda = .seq :: rest) :
    step s = seqTurn { s with agenda := rest } := by
  have hf : fetch s = fetchPhase { s with agenda := rest } := by
    rcases ha with ⟨ha, rfl⟩ | ha
    · have hs : s = { s with agenda := [] } := by rw [← ha]
      rw [fetch, ha]
      exact congrArg fetchPhase hs
    · rw [fetch, ha]
  rw [step, hf, fetchPhase, decodePhase_phaseBytes, seqTurn_eq]
  cases s.ph <;> rfl

/-- The step is the turn that the pseudo-operations are made of. -/
theorem step_eq_turn (s : State) : step s = turn s := by
  cases ha : s.agenda with
  | nil => rw [step_sequencer (.inl ⟨ha, rfl⟩), ← ha, turn_nil ha]
  | cons a rest =>
    cases a with
    | seq => rw [step_sequencer (.inr ha), turn, ha]
    | push w => simp only [step, fetch, turn, ha, exec]
    | kill => simp only [step, fetch, turn, ha, exec]
    | access bytes => rw [step_eq_accessTurn ha, turn, ha]

/-- Settles O6: the sequencer's turn is the operation of its phase, and every other turn is the one listed. -/
theorem stepRunsTheDecodedOperation : Obligations.StepRunsTheDecodedOperation := by
  intro s i r rest
  refine ⟨fun ha hd => ?_, fun w ha => ?_, fun ha => ?_, fun bytes ha hd => ?_, fun bytes e ha hd => ?_⟩
  · rw [decodePhase_phaseBytes] at hd
    rw [step_sequencer ha, seqTurn_eq]
    cases hp : phaseInstr s.ph with
    | none => rw [hp] at hd; cases hd
    | some j => rw [hp] at hd; cases hd; rfl
  · rw [step, fetch, ha]
  · rw [step, fetch, ha]
  · exact step_of_access ha hd
  · exact step_of_undecodable ha hd

/-- A predicate that each operation a turn can run keeps, and that does not depend on the agenda. -/
structure KeptByTurns (P : State → Prop) : Prop where
  agenda : ∀ {s : State} (rest : List Turn), P s → P { s with agenda := rest }
  init : ∀ {s t : State}, P s → execInit s = .next t → P t
  poll : ∀ {s t : State}, P s → execPoll s = .next t → P t
  pop : ∀ {s t : State}, P s → execPop s = .next t → P t
  buildFrame : ∀ {s t : State}, P s → execBuildFrame s = .next t → P t
  send : ∀ {s t : State}, P s → execSend s = .next t → P t
  adv : ∀ {s t : State}, P s → execAdv s = .next t → P t
  push : ∀ {s t : State} {w : Word}, P s → execPush w s = .next t → P t
  kill : ∀ {s t : State}, P s → execKill s = .next t → P t
  rdOob : ∀ {s t : State} {off : Word}, P s → execRdOob off s = .next t → P t

/-- What every operation a turn can run keeps, the step keeps. -/
theorem KeptByTurns.step {P : State → Prop} (h : KeptByTurns P) {s t : State} (hs : P s)
    (e : step s = .next t) : P t := by
  rw [step_eq_turn] at e
  obtain ⟨i, rest, e, hc⟩ := turn_next e
  have hr := h.agenda rest hs
  rcases hc with ⟨hi, -⟩ | ⟨w, rfl, -⟩ | ⟨rfl, -⟩ | ⟨_, off, rfl, -⟩
  · cases hp : s.ph with
    | init => rw [hp] at hi; cases hi; exact h.init hr e
    | poll => rw [hp] at hi; cases hi; exact h.poll hr e
    | pop => rw [hp] at hi; cases hi; exact h.pop hr e
    | pack => rw [hp] at hi; cases hi; exact h.buildFrame hr e
    | send => rw [hp] at hi; cases hi; exact h.send hr e
    | adv => rw [hp] at hi; cases hi; exact h.adv hr e
    | failed | halted => rw [hp] at hi; cases hi
  · exact h.push hr e
  · exact h.kill hr e
  · exact h.rdOob hr e

end Sys2Proof.Machine
end

section
/-!
PROOFS. What a trace holds after one more event, and the registers that few operations write: the handles
(10_state.md R17, R18, 44_frame_output.md R165) and the two buffers (R15, R16). A predicate that every operation that is
one step keeps, the pseudo-operations keep.
-/
namespace Sys2Proof.Machine

@[simp] theorem readsOf_append (off : Word) (tr evs : List Event) :
    readsOf off (tr ++ evs) = readsOf off tr ++ readsOf off evs := List.filterMap_append

@[simp] theorem framesOf_append (tr evs : List Event) : framesOf (tr ++ evs) = framesOf tr ++ framesOf evs :=
  List.filterMap_append

@[simp] theorem pushesOf_append (tr evs : List Event) : pushesOf (tr ++ evs) = pushesOf tr ++ pushesOf evs :=
  List.filterMap_append

@[simp] theorem readsOf_rd_same (off : Word) (a : Nat) (v : Word) : readsOf off [.rd off a v] = [v] := by
  simp [readsOf]

theorem readsOf_rd_other {off o : Word} (h : o ≠ off) (a : Nat) (v : Word) : readsOf off [.rd o a v] = [] := by
  simp [readsOf, h]

@[simp] theorem framesOf_rd (off : Word) (a : Nat) (v : Word) : framesOf [.rd off a v] = [] := rfl
@[simp] theorem pushesOf_rd (off : Word) (a : Nat) (v : Word) : pushesOf [.rd off a v] = [] := rfl
@[simp] theorem readsOf_push (off w : Word) : readsOf off [.push w] = [] := rfl
@[simp] theorem framesOf_push (w : Word) : framesOf [.push w] = [] := rfl
@[simp] theorem pushesOf_push (w : Word) : pushesOf [.push w] = [w] := rfl

/-- The events of a SEND are no register reads, one frame and no push, whatever the sink answers. -/
theorem traceOf_send (off : Word) (d : Dest) (f : List Byte) (a : SinkAnswer) :
    readsOf off (if a = .ok then [.send d f a] else [.send d f a, .reportTransient]) = [] ∧
    framesOf (if a = .ok then [.send d f a] else [.send d f a, .reportTransient]) = [f] ∧
    pushesOf (if a = .ok then [.send d f a] else [.send d f a, .reportTransient]) = [] := by
  split <;> exact ⟨rfl, rfl, rfl⟩

/-- The events of startup and of the end of a run are no register reads, no frames and no pushes. -/
theorem traceOf_quiet (off : Word) {evs : List Event} (h : ∀ e ∈ evs, e.quiet = true) :
    readsOf off evs = [] ∧ framesOf evs = [] ∧ pushesOf evs = [] := by
  simp only [readsOf, framesOf, pushesOf, List.filterMap_eq_nil_iff]
  refine ⟨fun e he => ?_, fun e he => ?_, fun e he => ?_⟩ <;>
    · split
      · cases h _ he
      · rfl

/-- A predicate that does not depend on the agenda or the answer, and that every operation that is one step keeps, is
kept by every operation. -/
theorem Kept.ofInvariant {P : State → Prop} (agenda : ∀ s rest, P s → P { s with agenda := rest })
    (answer : ∀ s a, P s → P { s with answer := a })
    (basic : ∀ i s t, isPseudo i = false → Machine.exec i s = .next t → P s → P t) : Kept (fun s t => P s → P t) where
  refl _ := id
  trans _ _ _ hst htu := htu ∘ hst
  agenda := agenda
  answer := answer
  basic := basic

/-- R17, R18: outside INIT no operation that is one step writes a handle or goes back to INIT. -/
theorem exec_handles_of_not_pseudo {i : Instr} {s t : State} (hi : isPseudo i = false) (h : exec i s = .next t)
    (hs : s.ph ≠ .init) : t.ph ≠ .init ∧ t.win = s.win ∧ t.txh = s.txh := by
  cases i with
  | nextWord | collect | cycle => cases hi
  | rdUndef | wr => cases h
  | riOpen => exact absurd (execRiOpen_next h).1 hs
  | txOpen => exact absurd (execTxOpen_next h).1 hs
  | init => exact absurd (execInit_next h).1 hs
  | fail => exact absurd (execFail_next h).1 hs
  | rdOcc => obtain ⟨-, _, _, _, _, -, rfl, -⟩ := execRdOcc_next h; exact ⟨hs, rfl, rfl⟩
  | rdData => obtain ⟨-, _, _, _, _, _, _, -, rfl, -⟩ := execRdData_next h; exact ⟨hs, rfl, rfl⟩
  | rdOob => obtain ⟨_, -, -, rfl⟩ := execRdOob_next h; exact ⟨hs, rfl, rfl⟩
  | poll =>
    obtain ⟨-, _, _, _, _, -, rfl, -⟩ := execPoll_next h
    exact ⟨by dsimp only; split <;> simp, rfl, rfl⟩
  | pop =>
    obtain ⟨-, -, _, _, _, _, _, _, -, rfl, -⟩ := execPop_next h
    exact ⟨by dsimp only; split <;> simp, rfl, rfl⟩
  | packCtr => obtain ⟨-, rfl⟩ := execPackCtr_next h; exact ⟨hs, rfl, rfl⟩
  | packIq => obtain ⟨-, -, rfl⟩ := execPackIq_next h; exact ⟨hs, rfl, rfl⟩
  | buildFrame => obtain ⟨-, rfl⟩ := execBuildFrame_next h; exact ⟨by simp, rfl, rfl⟩
  | send => obtain ⟨-, _, _, _, _, -, rfl⟩ := execSend_next h; exact ⟨by simp, rfl, rfl⟩
  | adv => obtain ⟨-, rfl⟩ := execAdv_next h; exact ⟨by simp, rfl, rfl⟩
  | kill => obtain ⟨-, rfl⟩ := execKill_next h; exact ⟨by simp, rfl, rfl⟩
  | push => obtain ⟨_, _, _, rfl, -⟩ := execPush_next h; exact ⟨hs, rfl, rfl⟩

/-- Being past INIT with the same handles is a relation that turns keep. -/
theorem kept_handles : Kept (fun s t : State => s.ph ≠ .init → t.ph ≠ .init ∧ t.win = s.win ∧ t.txh = s.txh) where
  refl _ hs := ⟨hs, rfl, rfl⟩
  trans _ _ _ hst htu hs := by
    obtain ⟨ht, hwin, htxh⟩ := hst hs
    obtain ⟨hu, hwin', htxh'⟩ := htu ht
    exact ⟨hu, hwin'.trans hwin, htxh'.trans htxh⟩
  agenda _ _ hs := ⟨hs, rfl, rfl⟩
  answer _ _ hs := ⟨hs, rfl, rfl⟩
  basic _ _ _ := exec_handles_of_not_pseudo

/-- Settles O56: INIT's own operations are the only writers of a handle, and no operation goes back to INIT. -/
theorem handlesAreWrittenInInitOnly : Obligations.HandlesAreWrittenInInitOnly := by
  intro i s t hs h
  exact (kept_handles.exec h hs).2

/-- R15, R16: POP writes `WBUF` and the packing operations write `FB`, each through `putCell`; no other operation that is
one step writes a buffer. -/
theorem exec_cells_of_not_pseudo {i : Instr} {s t : State} (hi : isPseudo i = false) (h : exec i s = .next t)
    (hs : CellsOk s) : CellsOk t := by
  cases i with
  | nextWord | collect | cycle => cases hi
  | rdUndef | wr => cases h
  | pop =>
    obtain ⟨-, -, _, _, _, _, _, _, -, rfl, -⟩ := execPop_next h
    exact ⟨cellsWf_putCell _ _ _ hs.1, hs.2⟩
  | packCtr => obtain ⟨-, rfl⟩ := execPackCtr_next h; exact ⟨hs.1, cellsWf_putCells _ _ _ hs.2⟩
  | packIq => obtain ⟨-, -, rfl⟩ := execPackIq_next h; exact ⟨hs.1, cellsWf_putCells _ _ _ hs.2⟩
  | buildFrame => obtain ⟨-, rfl⟩ := execBuildFrame_next h; exact ⟨hs.1, cellsWf_putCells _ _ _ hs.2⟩
  | riOpen => obtain ⟨-, -, _, _, _, rfl, -⟩ := execRiOpen_next h; exact hs
  | rdOcc => obtain ⟨-, _, _, _, _, -, rfl, -⟩ := execRdOcc_next h; exact hs
  | rdData => obtain ⟨-, _, _, _, _, _, _, -, rfl, -⟩ := execRdData_next h; exact hs
  | rdOob => obtain ⟨_, -, -, rfl⟩ := execRdOob_next h; exact hs
  | poll => obtain ⟨-, _, _, _, _, -, rfl, -⟩ := execPoll_next h; exact hs
  | txOpen => obtain ⟨-, -, -, _, _, _, rfl, -⟩ := execTxOpen_next h; exact hs
  | send => obtain ⟨-, _, _, _, _, -, rfl⟩ := execSend_next h; exact hs
  | init => obtain ⟨-, ⟨-, _, -, rfl⟩ | ⟨-, _, _, _, rfl, -⟩⟩ := execInit_next h <;> exact hs
  | adv => obtain ⟨-, rfl⟩ := execAdv_next h; exact hs
  | fail => obtain ⟨-, -, -, rfl⟩ := execFail_next h; exact hs
  | kill => obtain ⟨-, rfl⟩ := execKill_next h; exact hs
  | push => obtain ⟨_, _, _, rfl, -⟩ := execPush_next h; exact hs

/-- Settles O57: `putCell` keeps the canonical form, and every write of a buffer is made of it. -/
theorem buffersKeepCanonicalForm : Obligations.BuffersKeepCanonicalForm := by
  intro i s t hs h
  have hk : Kept (fun s t => CellsOk s → CellsOk t) :=
    .ofInvariant (fun _ _ => id) (fun _ _ => id) (fun _ _ _ => exec_cells_of_not_pseudo)
  exact hk.exec h hs

end Sys2Proof.Machine
end

section
/-!
PROOFS. The FIFO (10_state.md R24 to R28, R35, R36): everything an operation that is one step can do to the queue, its
ghost bits and what the trace holds of them, and from it the bound on the queue, the sample order and poll-then-pop
safety.
-/
namespace Sys2Proof.Machine

/-- Everything an operation that is one step can do to the FIFO: nothing; a read of DATA; or a push. -/
inductive FifoMove (s t : State) : Prop
  | still (q : t.q = s.q) (ovf : t.ovf = s.ovf) (undf : t.undf = s.undf)
      (reads : s.cfg.occOff ≠ s.cfg.dataOff → popped t = popped s) (pushes : pushesOf t.trace = pushesOf s.trace)
  | read (v : Word) (head : Popped s v t.q t.undf) (shorter : t.q.length ≤ s.q.length) (ovf : t.ovf = s.ovf)
      (reads : popped t = popped s ++ [v]) (pushes : pushesOf t.trace = pushesOf s.trace)
  | push (w : Word) (undf : t.undf = s.undf) (reads : popped t = popped s)
      (pushes : pushesOf t.trace = pushesOf s.trace ++ [w])
      (q : s.q.length < s.cfg.depth ∧ t.q = s.q ++ [w] ∧ t.ovf = s.ovf ∨
        s.cfg.depth ≤ s.q.length ∧ t.q.length ≤ s.cfg.depth ∧ t.ovf = true)

/-- Operations that leave the FIFO alone and whose events are neither reads nor pushes. -/
theorem FifoMove.of_quiet {s t : State} {evs : List Event} (hc : t.cfg = s.cfg) (hq : t.q = s.q) (ho : t.ovf = s.ovf)
    (hu : t.undf = s.undf) (ht : t.trace = s.trace ++ evs) (he : ∀ e ∈ evs, e.quiet = true) : FifoMove s t := by
  obtain ⟨hr, -, hp⟩ := traceOf_quiet s.cfg.dataOff he
  exact .still hq ho hu (fun _ => by simp [popped, hc, ht, hr]) (by simp [ht, hp])

/-- A read of OCC is no move of the FIFO. -/
theorem FifoMove.of_readOcc {s t : State} {a : Nat} {v : Word} (hc : t.cfg = s.cfg) (hq : t.q = s.q)
    (ho : t.ovf = s.ovf) (hu : t.undf = s.undf) (ht : t.trace = s.trace ++ [.rd s.cfg.occOff a v]) :
    FifoMove s t :=
  .still hq ho hu (fun hne => by simp [popped, hc, ht, readsOf_rd_other hne]) (by simp [ht])

theorem exec_fifoMove {i : Instr} {s t : State} (hi : isPseudo i = false) (h : exec i s = .next t) :
    FifoMove s t := by
  cases i with
  | nextWord | collect | cycle => cases hi
  | rdUndef | wr => cases h
  | rdData =>
    obtain ⟨-, _, v, _, _, _, _, -, rfl, hv, -, hl⟩ := execRdData_next h
    exact .read v hv hl rfl (by simp [popped]) (by simp)
  | pop =>
    obtain ⟨-, -, _, v, _, _, _, _, -, rfl, hv, -, hl⟩ := execPop_next h
    exact .read v hv hl rfl (by simp [popped]) (by simp)
  | push w =>
    obtain ⟨_, _, _, rfl, hq⟩ := execPush_next h
    exact .push w rfl (by simp [popped]) (by simp) hq
  | rdOcc => obtain ⟨-, _, _, _, _, -, rfl, -⟩ := execRdOcc_next h; exact .of_readOcc rfl rfl rfl rfl rfl
  | poll => obtain ⟨-, _, _, _, _, -, rfl, -⟩ := execPoll_next h; exact .of_readOcc rfl rfl rfl rfl rfl
  | send =>
    obtain ⟨-, d, a, _, _, -, rfl⟩ := execSend_next h
    obtain ⟨hr, -, hp⟩ := traceOf_send s.cfg.dataOff d s.frame a
    exact .still rfl rfl rfl (fun _ => by simp [popped, hr]) (by simp [hp])
  | init =>
    obtain ⟨-, ⟨-, _, -, rfl⟩ | ⟨-, _, _, _, rfl, -, hevs⟩⟩ := execInit_next h
    · exact .of_quiet rfl rfl rfl rfl rfl (by simp [Event.quiet])
    · exact .of_quiet rfl rfl rfl rfl rfl hevs
  | riOpen =>
    obtain ⟨-, -, _, _, _, rfl, -⟩ := execRiOpen_next h
    exact .of_quiet rfl rfl rfl rfl rfl (by simp)
  | txOpen =>
    obtain ⟨-, -, -, _, _, _, rfl, -⟩ := execTxOpen_next h
    exact .of_quiet rfl rfl rfl rfl rfl (by simp)
  | fail => obtain ⟨-, -, -, rfl⟩ := execFail_next h; exact .of_quiet rfl rfl rfl rfl rfl (by simp)
  | kill => obtain ⟨-, rfl⟩ := execKill_next h; exact .of_quiet rfl rfl rfl rfl rfl (by simp [Event.quiet])
  | rdOob => obtain ⟨_, -, -, rfl⟩ := execRdOob_next h; exact .still rfl rfl rfl (fun _ => rfl) rfl
  | packCtr => obtain ⟨-, rfl⟩ := execPackCtr_next h; exact .still rfl rfl rfl (fun _ => rfl) rfl
  | packIq => obtain ⟨-, -, rfl⟩ := execPackIq_next h; exact .still rfl rfl rfl (fun _ => rfl) rfl
  | buildFrame => obtain ⟨-, rfl⟩ := execBuildFrame_next h; exact .still rfl rfl rfl (fun _ => rfl) rfl
  | adv => obtain ⟨-, rfl⟩ := execAdv_next h; exact .still rfl rfl rfl (fun _ => rfl) rfl

/-- R128: where the FIFO serves the reads, it goes on serving them. -/
theorem exec_source_of_not_pseudo {i : Instr} {s t : State} (hi : isPseudo i = false) (h : exec i s = .next t)
    (hs : s.source = .fifo) : t.source = .fifo := by
  cases i with
  | nextWord | collect | cycle => cases hi
  | rdUndef | wr => cases h
  | rdOcc => obtain ⟨-, _, _, _, _, -, rfl, hf⟩ := execRdOcc_next h; exact (hf hs).2
  | poll => obtain ⟨-, _, _, _, _, -, rfl, hf⟩ := execPoll_next h; exact (hf hs).2
  | rdData => obtain ⟨-, _, _, _, _, _, _, -, rfl, -, hf, -⟩ := execRdData_next h; exact hf hs
  | pop => obtain ⟨-, -, _, _, _, _, _, _, -, rfl, -, hf, -⟩ := execPop_next h; exact hf hs
  | riOpen => obtain ⟨-, -, _, _, _, rfl, -⟩ := execRiOpen_next h; exact hs
  | rdOob => obtain ⟨_, -, -, rfl⟩ := execRdOob_next h; exact hs
  | packCtr => obtain ⟨-, rfl⟩ := execPackCtr_next h; exact hs
  | packIq => obtain ⟨-, -, rfl⟩ := execPackIq_next h; exact hs
  | buildFrame => obtain ⟨-, rfl⟩ := execBuildFrame_next h; exact hs
  | txOpen => obtain ⟨-, -, -, _, _, _, rfl, -⟩ := execTxOpen_next h; exact hs
  | send => obtain ⟨-, _, _, _, _, -, rfl⟩ := execSend_next h; exact hs
  | init => obtain ⟨-, ⟨-, _, -, rfl⟩ | ⟨-, _, _, _, rfl, -⟩⟩ := execInit_next h <;> exact hs
  | adv => obtain ⟨-, rfl⟩ := execAdv_next h; exact hs
  | fail => obtain ⟨-, -, -, rfl⟩ := execFail_next h; exact hs
  | kill => obtain ⟨-, rfl⟩ := execKill_next h; exact hs
  | push => obtain ⟨_, _, _, rfl, -⟩ := execPush_next h; exact hs

/-- R26: a move of the FIFO keeps the queue within `DEPTH`: a read shortens it, a push appends below `DEPTH` alone. -/
theorem FifoMove.length_le {s t : State} (m : FifoMove s t) (hs : s.q.length ≤ s.cfg.depth) :
    t.q.length ≤ s.cfg.depth := by
  cases m with
  | still q => rw [q]; exact hs
  | read v head shorter => omega
  | push w undf reads pushes q =>
    rcases q with ⟨hlt, hq, -⟩ | ⟨-, hle, -⟩
    · simp only [hq, List.length_append, List.length_singleton]; omega
    · exact hle

/-- Settles O54: `DEPTH` does not change, and no move of the FIFO takes the queue past it. -/
theorem queueNeverExceedsDepth : Obligations.QueueNeverExceedsDepth := by
  intro i s t hs h
  have hk : Kept (fun s t => s.q.length ≤ s.cfg.depth → t.q.length ≤ t.cfg.depth) :=
    .ofInvariant (fun _ _ => id) (fun _ _ => id) (fun _ _ _ hi h hs => by
      rw [exec_cfg_of_not_pseudo hi h]
      exact (exec_fifoMove hi h).length_le hs)
  exact hk.exec h hs

/-- R36: a move of the FIFO keeps the sample order: a read moves the head of the queue to the words popped, a push
appends to both sides, and after an underflow or an overflow nothing is claimed. -/
theorem FifoMove.sampleFlow {s t : State} (m : FifoMove s t) {q0 : List Word}
    (hne : s.cfg.occOff ≠ s.cfg.dataOff) (hf : s.source = .fifo) (hs : SampleFlow q0 s) : SampleFlow q0 t := by
  intro hovf hundf
  cases m with
  | still q ovf undf reads pushes =>
    rw [pushes, reads hne, q]
    exact hs (ovf ▸ hovf) (undf ▸ hundf)
  | read v head shorter ovf reads pushes =>
    rcases head hf with ⟨hq, hu⟩ | ⟨-, -, hu⟩
    · have := hs (ovf ▸ hovf) (hu ▸ hundf)
      rw [hq] at this
      simp [pushes, reads, this]
    · rw [hu] at hundf; cases hundf
  | push w undf reads pushes q =>
    rcases q with ⟨-, hq, ho⟩ | ⟨-, -, ho⟩
    · have := hs (ho ▸ hovf) (undf ▸ hundf)
      rw [pushes, reads, hq, ← List.append_assoc, this, List.append_assoc]
    · rw [ho] at hovf; cases hovf

/-- What sample order needs and keeps: one offset for each register, the FIFO behind them, and the order itself. -/
def Ordered (q0 : List Word) (s : State) : Prop :=
  s.cfg.occOff ≠ s.cfg.dataOff ∧ s.source = .fifo ∧ SampleFlow q0 s

theorem kept_ordered (q0 : List Word) : Kept (fun s t => Ordered q0 s → Ordered q0 t) :=
  .ofInvariant (fun _ _ => id) (fun _ _ => id) (fun _ _ _ hi h ⟨hne, hf, hs⟩ =>
    ⟨exec_cfg_of_not_pseudo hi h ▸ hne, exec_source_of_not_pseudo hi h hf, (exec_fifoMove hi h).sampleFlow hne hf hs⟩)

/-- Settles O51: every move of the FIFO keeps the order, so the pseudo-operations, made of such moves, keep it too. -/
theorem sampleOrderIsKept : Obligations.SampleOrderIsKept := by
  intro q0 i s t hne hf hs h
  exact ((kept_ordered q0).exec h ⟨hne, hf, hs⟩).2

/-- Poll-then-pop safety where the FIFO did not move: phase `POP` is entered with a word queued only. -/
theorem PopSafe.of_still {s t : State} (h : PopSafe s) (hf : t.source = .fifo) (hc : t.cfg = s.cfg) (hq : t.q = s.q)
    (ho : t.ovf = s.ovf) (hu : t.undf = s.undf) (hp : t.ph = .pop → s.ph = .pop ∨ s.q ≠ []) : PopSafe t where
  fifo := hf
  depth := hc ▸ h.depth
  queue := by rw [hc, hq]; exact h.queue
  safe hovf := by
    obtain ⟨hundf, hword⟩ := h.safe (ho ▸ hovf)
    exact ⟨hu ▸ hundf, fun ht => hq ▸ (hp ht).elim hword id⟩

/-- A count below 2^32 that is reported as non-zero is that of a queue that holds a word (R25). -/
theorem ne_nil_of_wordAvailable {q : List Word} (h : wordAvailable (BitVec.ofNat 32 q.length) = true) : q ≠ [] := by
  rintro rfl
  exact absurd h (by decide)

theorem popSafe_keptByTurns : KeptByTurns PopSafe where
  agenda rest h := h.of_still h.fifo rfl rfl rfl rfl .inl
  init h e := by
    obtain ⟨-, ⟨-, _, -, rfl⟩ | ⟨-, _, _, _, rfl, -⟩⟩ := execInit_next e
    · exact h.of_still h.fifo rfl rfl rfl rfl (by simp)
    · exact h.of_still h.fifo rfl rfl rfl rfl (by simp)
  poll h e := by
    obtain ⟨-, _, v, _, _, -, rfl, hv⟩ := execPoll_next e
    obtain ⟨rfl, hf⟩ := hv h.fifo
    refine h.of_still hf rfl rfl rfl rfl (fun hp => .inr (ne_nil_of_wordAvailable ?_))
    by_contra hw
    simp [hw] at hp
  pop {s t} h e := by
    have hm := exec_fifoMove (i := .pop) rfl e
    obtain ⟨hp, -, _, v, q, u, src, n, -, rfl, hv, hf, -⟩ := execPop_next e
    refine ⟨hf h.fifo, h.depth, hm.length_le h.queue, fun hovf => ?_⟩
    obtain ⟨hundf, hword⟩ := h.safe hovf
    rcases hv h.fifo with ⟨-, hu⟩ | ⟨hq, -⟩
    · exact ⟨hu.trans hundf, fun ht => by dsimp only at ht; split at ht <;> cases ht⟩
    · exact absurd hq (hword hp)
  buildFrame h e := by
    obtain ⟨-, rfl⟩ := execBuildFrame_next e
    exact h.of_still h.fifo rfl rfl rfl rfl (by simp)
  send h e := by
    obtain ⟨-, _, _, _, _, -, rfl⟩ := execSend_next e
    exact h.of_still h.fifo rfl rfl rfl rfl (by simp)
  adv h e := by
    obtain ⟨-, rfl⟩ := execAdv_next e
    exact h.of_still h.fifo rfl rfl rfl rfl (by simp)
  push {s t w} h e := by
    have hm := exec_fifoMove (i := .push w) rfl e
    obtain ⟨_, _, _, rfl, hq⟩ := execPush_next e
    refine ⟨h.fifo, h.depth, hm.length_le h.queue, fun hovf => ?_⟩
    rcases hq with ⟨-, rfl, rfl⟩ | ⟨-, -, rfl⟩
    · exact ⟨(h.safe hovf).1, fun _ => by simp⟩
    · cases hovf
  kill h e := by
    obtain ⟨-, rfl⟩ := execKill_next e
    exact h.of_still h.fifo rfl rfl rfl rfl (by simp)
  rdOob h e := by
    obtain ⟨_, -, -, rfl⟩ := execRdOob_next e
    exact h.of_still h.fifo rfl rfl rfl rfl .inl

/-- Settles O52: POLL goes to `POP` on a non-zero count alone, and until the POP the producer only adds words. -/
theorem pollThenPopIsSafe : Obligations.PollThenPopIsSafe := by
  intro s t hs h
  exact popSafe_keptByTurns.step hs h

end Sys2Proof.Machine
end

section
/-!
PROOFS. The invariant of the streaming phases (10_state.md R17, R18, R31, R33): what `WBUF` and `FB` hold, for each
operation a turn can run, and at the start of a run.
-/
namespace Sys2Proof.Machine

/-- The first `k` entries of a word buffer are the last `k` words of a list, in order. -/
def HoldsLast (m : List (Nat × Word)) (ws : List Word) (k : Nat) : Prop :=
  k ≤ ws.length ∧ ∀ j, j < k → cellAt m j = ws[ws.length - k + j]?

theorem HoldsLast.zero (m : List (Nat × Word)) (ws : List Word) : HoldsLast m ws 0 :=
  ⟨Nat.zero_le _, fun _ hj => absurd hj (Nat.not_lt_zero _)⟩

/-- R124: the next word goes behind those held. -/
theorem HoldsLast.putCell {m : List (Nat × Word)} {ws : List Word} {k : Nat} (h : HoldsLast m ws k) (v : Word) :
    HoldsLast (putCell m k v) (ws ++ [v]) (k + 1) := by
  obtain ⟨hk, hc⟩ := h
  refine ⟨by simpa using hk, fun j hj => ?_⟩
  have hlen : (ws ++ [v]).length - (k + 1) + j = ws.length - k + j := by simp
  rw [cellAt_putCell, hlen]
  by_cases hjk : j = k
  · subst hjk
    simp [Nat.sub_add_cancel hk]
  · rw [if_neg hjk, hc j (by omega), List.getElem?_append_left (by omega)]

/-- Where `WBUF` holds the last `N` words of a list, these are read from it, and nothing unwritten is read. -/
theorem HoldsLast.words {s : State} {ws : List Word} (h : HoldsLast s.wbuf ws s.cfg.n) :
    s.words = ws.drop (ws.length - s.cfg.n) ∧ s.wordsHeld = true := by
  obtain ⟨hk, hc⟩ := h
  refine words_of_cells (by rw [List.length_drop]; omega) (fun j hj => ?_)
  rw [hc j hj, List.getElem?_drop]

@[simp] theorem State.words_length (s : State) : s.words.length = s.cfg.n := by simp [State.words]

/-- R147: the counter's four bytes and four for each word. -/
theorem length_frameOf (c : Word) (ws : List Word) : (frameOf c ws).length = 4 + 4 * ws.length := by
  simp [frameOf, Nat.mul_comm]

theorem Phase.streaming_of_building {p : Phase} (h : p.building = true) : p.streaming = true := by
  cases p <;> simp [Phase.building] at h <;> rfl

theorem filled_of_building {s : State} (h : s.ph.building = true) : filled s = s.cfg.n := if_pos h

theorem filled_of_not_building {s : State} (h : s.ph.building = false) : filled s = s.idx := by simp [filled, h]

namespace LoopInv

/-- While words are collected, `WBUF` holds the last `IDX` words popped. -/
theorem held {s : State} (h : LoopInv s) (hs : s.ph.streaming = true) (hb : s.ph.building = false) :
    HoldsLast s.wbuf (popped s) s.idx :=
  filled_of_not_building hb ▸ h.collected hs

/-- While the frame is built and sent, `WBUF` holds the last `N` words popped. -/
theorem held_all {s : State} (h : LoopInv s) (hb : s.ph.building = true) : HoldsLast s.wbuf (popped s) s.cfg.n :=
  filled_of_building hb ▸ h.collected (Phase.streaming_of_building hb)

/-- An unwritten entry is read as a draw; as all are written, the words do not depend on the draws made since. -/
theorem words_congr {s t : State} (h : LoopInv s) (hb : s.ph.building = true) (hc : t.cfg = s.cfg)
    (hw : t.wbuf = s.wbuf) : t.words = s.words := by
  have ht : HoldsLast t.wbuf (popped s) t.cfg.n := by rw [hw, hc]; exact h.held_all hb
  rw [ht.words.1, hc, (h.held_all hb).words.1]

/-- In phase `SEND` the frame read from `FB` is the one R146 gives, and all its bytes have been written. -/
theorem frame_eq {s : State} (h : LoopInv s) (hp : s.ph = .send) :
    s.frame = frameOf s.seq s.words ∧ s.frameHeld = true :=
  frame_of_cells (by rw [length_frameOf, State.words_length, frameLen]) (h.packed (.inl hp))

/-- The invariant does not speak of the queue, the agents' inputs or the draws, and of the trace only by the words
popped. -/
theorem of_environment {s : State} (h : LoopInv s) (q : List Word) (v : Bool) (n : Nat) (a : Answer) (r : List Turn)
    {tr : List Event} (htr : readsOf s.cfg.dataOff tr = popped s) :
    LoopInv { s with q := q, ovf := v, draws := n, answer := a, agenda := r, trace := tr } where
  oneWord := h.oneWord
  offsets := h.offsets
  window := h.window
  sinkDest := h.sinkDest
  streaming := h.streaming
  index := h.index
  collected hs := by
    simp only [popped, htr]
    exact h.collected hs
  packed hp j hj := by
    have hb : s.ph.building = true := by rcases (hp : s.ph = .send ∨ s.ph = .adv) with hp | hp <;> rw [hp] <;> rfl
    exact (h.packed hp j hj).trans (congrArg (fun ws => (frameOf s.seq ws)[j]?) (Eq.symm (h.words_congr hb rfl rfl)))
  written := h.written

/-- Outside the streaming phases nothing is claimed of the two buffers. -/
theorem of_not_streaming {s : State} (h : LoopInv s) {p : Phase} (hp : p.streaming = false) (win : Option Window)
    (hw : win = s.win ∨ win = some (Window.mk s.cfg.base s.cfg.span) ∧ offsetsInside s.cfg s.cfg.span = true)
    (a : Answer) (tr : List Event) : LoopInv { s with win := win, ph := p, answer := a, trace := tr } where
  oneWord := h.oneWord
  offsets := h.offsets
  window w hww := by
    rcases hw with rfl | ⟨rfl, ho⟩
    · exact h.window w hww
    · cases hww
      exact ⟨rfl, ho⟩
  sinkDest := h.sinkDest
  streaming hs := absurd hs (by simp [hp])
  index hb := absurd (Phase.streaming_of_building hb) (by simp [hp])
  collected hs := absurd hs (by simp [hp])
  packed hs := by rcases hs with rfl | rfl <;> cases hp
  written := h.written

/-- From a streaming phase to another with the handles as they were, what is left to show is what the buffers hold. -/
theorem of_streaming {s t : State} (h : LoopInv s) (hs : s.ph.streaming = true) (hcfg : t.cfg = s.cfg)
    (hwin : t.win = s.win) (htxh : t.txh = s.txh) (hunwr : t.unwr = false) (hidx : t.idx < s.cfg.n)
    (index : t.ph.building = true → t.idx = 0) (collected : HoldsLast t.wbuf (popped t) (filled t))
    (packed : t.ph = .send ∨ t.ph = .adv → s.ph.building = true ∧ t.wbuf = s.wbuf ∧
      ∀ j, j < frameLen s.cfg → cellAt t.fb j = (frameOf t.seq s.words)[j]?) :
    LoopInv t where
  oneWord := hcfg ▸ h.oneWord
  offsets := hcfg ▸ h.offsets
  window := by rw [hcfg, hwin]; exact h.window
  sinkDest := by rw [hcfg, htxh]; exact h.sinkDest
  streaming _ := by
    obtain ⟨hw, hd, -⟩ := h.streaming hs
    exact ⟨hwin ▸ hw, htxh ▸ hd, hcfg ▸ hidx⟩
  index := index
  collected _ := collected
  packed hp := by
    obtain ⟨hb, hw, hj⟩ := packed hp
    rw [h.words_congr hb hcfg hw, hcfg]
    exact hj
  written := hunwr

theorem init {s t : State} (h : LoopInv s) (e : execInit s = .next t) : LoopInv t := by
  obtain ⟨-, ⟨⟨-, ho, -, -⟩, d, hd, rfl⟩ | ⟨-, win, a, evs, rfl, hw, -⟩⟩ := execInit_next e
  · exact
      { oneWord := h.oneWord
        offsets := h.offsets
        window := by rintro w ⟨⟩; exact ⟨rfl, ho⟩
        sinkDest := by rintro d' ⟨⟩; exact hd
        streaming := fun _ => ⟨by simp, by simp, h.oneWord⟩
        index := fun _ => rfl
        collected := fun _ => HoldsLast.zero _ _
        packed := by rintro (⟨⟨⟩⟩ | ⟨⟨⟩⟩)
        written := h.written }
  · exact h.of_not_streaming rfl win hw a _

theorem poll {s t : State} (h : LoopInv s) (e : execPoll s = .next t) : LoopInv t := by
  obtain ⟨hp, _, v, _, _, -, rfl, -⟩ := execPoll_next e
  have hs : s.ph.streaming = true := by rw [hp]; rfl
  have hc := h.held hs (by rw [hp]; rfl)
  obtain ⟨-, -, hidx⟩ := h.streaming hs
  refine h.of_streaming hs rfl rfl rfl h.written hidx ?_ ?_ ?_
  · cases wordAvailable v <;> simp [Phase.building]
  · cases wordAvailable v <;>
      simpa [filled, Phase.building, popped, readsOf_rd_other h.offsets] using hc
  · cases wordAvailable v <;> simp

theorem pop {s t : State} (h : LoopInv s) (e : execPop s = .next t) : LoopInv t := by
  obtain ⟨hp, hi, _, v, _, _, _, _, -, rfl, -⟩ := execPop_next e
  have hs : s.ph.streaming = true := by rw [hp]; rfl
  have hc := (h.held hs (by rw [hp]; rfl)).putCell v
  refine h.of_streaming hs rfl rfl rfl h.written ?_ ?_ ?_ ?_
  · dsimp only; split <;> omega
  · dsimp only; split <;> simp [Phase.building]
  · by_cases hl : s.idx = s.cfg.n - 1
    · rw [show s.idx + 1 = s.cfg.n by omega] at hc
      simpa [filled, Phase.building, popped, hl] using hc
    · simpa [filled, Phase.building, popped, hl] using hc
  · dsimp only; split <;> simp

theorem buildFrame {s t : State} (h : LoopInv s) (e : execBuildFrame s = .next t) : LoopInv t := by
  obtain ⟨hp, rfl⟩ := execBuildFrame_next e
  have hb : s.ph.building = true := by rw [hp]; rfl
  have hs := Phase.streaming_of_building hb
  obtain ⟨-, -, hidx⟩ := h.streaming hs
  have hheld := (h.held_all hb).words.2
  refine h.of_streaming hs rfl rfl rfl ?_ hidx (fun _ => h.index hb) (h.held_all hb)
    (fun _ => ⟨hb, rfl, fun j hj => ?_⟩)
  · simp [h.written, hheld]
  · rw [cellAt_putCells, if_pos, Nat.sub_zero]
    rw [length_frameOf, State.words_length]
    exact ⟨Nat.zero_le j, by simpa [frameLen] using hj⟩

theorem send {s t : State} (h : LoopInv s) (e : execSend s = .next t) : LoopInv t := by
  obtain ⟨hp, d, a, _, _, -, rfl⟩ := execSend_next e
  have hb : s.ph.building = true := by rw [hp]; rfl
  have hs := Phase.streaming_of_building hb
  obtain ⟨-, -, hidx⟩ := h.streaming hs
  refine h.of_streaming hs rfl rfl rfl ?_ hidx (fun _ => h.index hb) ?_ (fun _ => ⟨hb, rfl, h.packed (.inl hp)⟩)
  · simp [h.written, (h.frame_eq hp).2]
  · simpa [filled, Phase.building, popped, (traceOf_send _ _ _ _).1] using h.held_all hb

theorem adv {s t : State} (h : LoopInv s) (e : execAdv s = .next t) : LoopInv t := by
  obtain ⟨hp, rfl⟩ := execAdv_next e
  have hb : s.ph.building = true := by rw [hp]; rfl
  have hidx := h.index hb
  refine h.of_streaming (Phase.streaming_of_building hb) rfl rfl rfl h.written (hidx ▸ h.oneWord) ?_ ?_ ?_
  · simp [Phase.building]
  · simpa [filled, Phase.building, hidx] using HoldsLast.zero _ _
  · simp

theorem push {s t : State} {w : Word} (h : LoopInv s) (e : execPush w s = .next t) : LoopInv t := by
  obtain ⟨q, v, n, rfl, -⟩ := execPush_next e
  exact h.of_environment q v n s.answer s.agenda (by simp [popped])

theorem kill {s t : State} (h : LoopInv s) (e : execKill s = .next t) : LoopInv t := by
  obtain ⟨-, rfl⟩ := execKill_next e
  exact h.of_not_streaming rfl s.win (.inl rfl) s.answer _

theorem rdOob {s t : State} {off : Word} (h : LoopInv s) (e : execRdOob off s = .next t) : LoopInv t := by
  obtain ⟨_, -, -, rfl⟩ := execRdOob_next e
  exact h.of_environment s.q s.ovf s.draws _ s.agenda rfl

theorem keptByTurns : KeptByTurns LoopInv where
  agenda {s} rest h := h.of_environment s.q s.ovf s.draws s.answer rest rfl
  init := init
  poll := poll
  pop := pop
  buildFrame := buildFrame
  send := send
  adv := adv
  push := push
  kill := kill
  rdOob := rdOob

end LoopInv

/-- Settles O49: each operation a turn can run keeps the invariant. -/
theorem streamingInvariantIsKept : Obligations.StreamingInvariantIsKept := by
  intro s t hs h
  exact LoopInv.keptByTurns.step hs h

end Sys2Proof.Machine
end

section
/-!
PROOFS. The stream of frames (10_state.md R34, R36, 45_acquisition_loop.md R198): the counter, the number of words
popped, and what each frame sent is, for each operation a turn can run.
-/
namespace Sys2Proof.Machine

/-- The `j`-th group of `n` words of a list. -/
def wordGroup (n j : Nat) (ws : List Word) : List Word := (ws.drop (n * j)).take n

/-- A group that is complete does not change when words are popped after it. -/
theorem wordGroup_append {n j : Nat} {ws : List Word} (h : n * (j + 1) ≤ ws.length) (vs : List Word) :
    wordGroup n j (ws ++ vs) = wordGroup n j ws := by
  rw [Nat.mul_succ] at h
  rw [wordGroup, List.drop_append_of_le_length (by omega),
    List.take_append_of_le_length (by rw [List.length_drop]; omega), wordGroup]

/-- Where `j` groups and one more have been popped, that one is the last `n` words. -/
theorem wordGroup_last {n j : Nat} {ws : List Word} (h : ws.length = n * j + n) :
    wordGroup n j ws = ws.drop (ws.length - n) := by
  rw [wordGroup, h, Nat.add_sub_cancel]
  exact List.take_of_length_le (by rw [List.length_drop]; omega)

namespace FrameStream

/-- Words popped since do not change the frames sent before: each has its group already. -/
theorem frames_of_append {s t : State} (h : FrameStream s) (hcfg : t.cfg = s.cfg) (hsent : sent t = sent s)
    {vs : List Word} (hpop : popped t = popped s ++ vs) {j : Nat} {f : List Byte} (hf : (sent t)[j]? = some f) :
    f = frameOf (t.cfg.seqInit + BitVec.ofNat 32 j) (wordGroup t.cfg.n j (popped t)) := by
  rw [hsent] at hf
  have hj : j < (sent s).length := (List.getElem?_eq_some_iff.1 hf).1
  rw [hcfg, hpop, wordGroup_append ((Nat.mul_le_mul_left _ hj).trans h.enough)]
  exact h.frames j f hf

/-- A move that sends nothing: within the streaming phases `FrameStream` needs no more than that the counter is kept and
that the words popped by it are those it adds to `WBUF`. -/
theorem of_collecting {s t : State} (h : FrameStream s) (hs : s.ph.streaming = true) (hcfg : t.cfg = s.cfg)
    (hsent : sent t = sent s) (hseq : t.seq = s.seq) {vs : List Word} (hpop : popped t = popped s ++ vs)
    (hfill : filled t = filled s + vs.length) (hsa : s.ph ≠ .adv) (hti : t.ph ≠ .init) (hta : t.ph ≠ .adv) :
    FrameStream t where
  fresh hp := absurd hp hti
  advSent hp := absurd hp hta
  counter _ := by
    have := h.counter hs
    rw [if_neg hsa] at this
    rw [if_neg hta, hseq, hcfg, hsent, this]
  count _ := by
    have := h.count hs
    rw [if_neg hsa] at this
    rw [if_neg hta, hcfg, hsent, hpop, List.length_append, this, hfill, Nat.sub_zero, Nat.add_assoc]
  enough := by
    rw [hcfg, hsent, hpop, List.length_append]
    exact h.enough.trans (Nat.le_add_right _ _)
  frames _ _ := h.frames_of_append hcfg hsent hpop

/-- The stream does not depend on the queue, the agents' inputs or the draws, and on the trace only by the words popped
and the frames sent. -/
theorem of_environment {s : State} (h : FrameStream s) (q : List Word) (v : Bool) (n : Nat) (a : Answer)
    (r : List Turn) {tr : List Event} (hpop : readsOf s.cfg.dataOff tr = popped s) (hsent : framesOf tr = sent s) :
    FrameStream { s with q := q, ovf := v, draws := n, answer := a, agenda := r, trace := tr } where
  fresh hp := by simpa only [popped, sent, hpop, hsent] using h.fresh hp
  advSent hp := by simpa only [sent, hsent] using h.advSent hp
  counter hs := by simpa only [sent, hsent] using h.counter hs
  count hs := by
    simp only [popped, sent, hpop, hsent]
    exact h.count hs
  enough := by simpa only [popped, sent, hpop, hsent] using h.enough
  frames j f hf := by
    simp only [popped, sent, hpop, hsent] at hf ⊢
    exact h.frames j f hf

/-- Where the run stops, the frames sent stay what they are. -/
theorem of_stop {s t : State} (h : FrameStream s) (hcfg : t.cfg = s.cfg) (hpop : popped t = popped s)
    (hsent : sent t = sent s) (hp : t.ph = .failed ∨ t.ph = .halted) : FrameStream t where
  fresh ht := by rw [ht] at hp; rcases hp with hp | hp <;> cases hp
  advSent ht := by rw [ht] at hp; rcases hp with hp | hp <;> cases hp
  counter ht := by rcases hp with hp | hp <;> rw [hp] at ht <;> cases ht
  count ht := by rcases hp with hp | hp <;> rw [hp] at ht <;> cases ht
  enough := by rw [hcfg, hpop, hsent]; exact h.enough
  frames _ _ := h.frames_of_append hcfg hsent (vs := []) (by rw [hpop, List.append_nil])

/-- A stream that begins: no word has been popped, no frame sent, and the counter is `SEQ_INIT`. -/
theorem of_nothing {t : State} (hpop : popped t = []) (hsent : sent t = []) (hseq : t.seq = t.cfg.seqInit)
    (hidx : t.idx = 0) (hp : t.ph = .poll) : FrameStream t where
  fresh _ := ⟨hpop, hsent⟩
  advSent ht := by rw [hp] at ht; cases ht
  counter _ := by simp [hseq, hsent]
  count _ := by simp [hpop, hsent, filled, hp, Phase.building, hidx]
  enough := by simp [hsent]
  frames j f hf := by simp [hsent] at hf

/-- R180: a run starts with no word and no frame, and the counter at `SEQ_INIT`. -/
theorem init {s t : State} (h : FrameStream s) (e : execInit s = .next t) : FrameStream t := by
  obtain ⟨hp, ⟨-, d, -, rfl⟩ | ⟨-, win, a, evs, rfl, -, hevs⟩⟩ := execInit_next e
  · obtain ⟨hpop, hsent⟩ := h.fresh hp
    obtain ⟨hr, hf, -⟩ := traceOf_quiet s.cfg.dataOff
      (evs := [.openRi s.cfg.base s.cfg.span none, .openTx d none, .status]) (by simp [Event.quiet])
    exact of_nothing (by rw [popped, readsOf_append, hr]; simpa [popped] using hpop)
      (by rw [sent, framesOf_append, hf]; simpa [sent] using hsent) rfl rfl rfl
  · obtain ⟨hr, hf, -⟩ := traceOf_quiet s.cfg.dataOff hevs
    exact h.of_stop rfl (by simp [popped, hr]) (by simp [sent, hf]) (.inl rfl)

theorem poll {s t : State} (hl : LoopInv s) (h : FrameStream s) (e : execPoll s = .next t) : FrameStream t := by
  obtain ⟨hp, _, v, _, _, -, rfl, -⟩ := execPoll_next e
  refine h.of_collecting (vs := []) (by rw [hp]; rfl) rfl ?_ rfl ?_ ?_ (by simp [hp]) ?_ ?_
  · simp [sent]
  · simp [popped, readsOf_rd_other hl.offsets]
  · cases wordAvailable v <;> simp [filled, hp, Phase.building]
  · cases wordAvailable v <;> simp
  · cases wordAvailable v <;> simp

theorem pop {s t : State} (h : FrameStream s) (e : execPop s = .next t) : FrameStream t := by
  obtain ⟨hp, hi, _, v, _, _, _, _, -, rfl, -⟩ := execPop_next e
  refine h.of_collecting (vs := [v]) (by rw [hp]; rfl) rfl ?_ rfl ?_ ?_ (by simp [hp]) ?_ ?_
  · simp [sent]
  · simp [popped]
  · by_cases hl : s.idx = s.cfg.n - 1
    · have hn : s.cfg.n = s.cfg.n - 1 + 1 := by omega
      simpa [filled, hp, Phase.building, hl] using hn
    · simp [filled, hp, Phase.building, hl]
  · dsimp only; split <;> simp
  · dsimp only; split <;> simp

theorem buildFrame {s t : State} (h : FrameStream s) (e : execBuildFrame s = .next t) : FrameStream t := by
  obtain ⟨hp, rfl⟩ := execBuildFrame_next e
  exact h.of_collecting (vs := []) (by rw [hp]; rfl) rfl rfl rfl (by simp [popped])
    (by simp [filled, hp, Phase.building]) (by simp [hp]) (by simp) (by simp)

/-- In phase `SEND` the counter is that of the frame to come, and its words are the last popped. -/
theorem counts_of_send {s : State} (h : FrameStream s) (hp : s.ph = .send) :
    s.seq = s.cfg.seqInit + BitVec.ofNat 32 (sent s).length ∧
      (popped s).length = s.cfg.n * (sent s).length + s.cfg.n := by
  have hb : s.ph.building = true := by rw [hp]; rfl
  have hs := Phase.streaming_of_building hb
  have hseq := h.counter hs
  have hcount := h.count hs
  rw [if_neg (by simp [hp]), Nat.sub_zero] at hseq hcount
  exact ⟨hseq, filled_of_building hb ▸ hcount⟩

/-- One frame more, which is that of the counter and of the last group of words. -/
theorem of_sent {s t : State} (h : FrameStream s) (hs : s.ph = .send) (ht : t.ph = .adv) (hcfg : t.cfg = s.cfg)
    (hseq : t.seq = s.seq) (hpop : popped t = popped s) {f : List Byte} (hsent : sent t = sent s ++ [f])
    (hf : f = frameOf s.seq (wordGroup s.cfg.n (sent s).length (popped s))) : FrameStream t := by
  obtain ⟨hseq', hcount⟩ := h.counts_of_send hs
  have hlen : (sent t).length = (sent s).length + 1 := by rw [hsent, List.length_append, List.length_singleton]
  exact
    { fresh := fun hp => by rw [ht] at hp; cases hp
      advSent := fun _ => by omega
      counter := fun _ => by rw [if_pos ht, hlen, Nat.add_sub_cancel, hseq, hcfg, hseq']
      count := fun _ => by
        rw [if_pos ht, hlen, Nat.add_sub_cancel, hpop, hcount, filled_of_building (by rw [ht]; rfl), hcfg]
      enough := by rw [hlen, hpop, hcount, hcfg, Nat.mul_succ]
      frames := fun j g hj => by
        rw [hcfg, hpop]
        rw [hsent] at hj
        rcases Nat.lt_trichotomy j (sent s).length with hlt | rfl | hgt
        · rw [List.getElem?_append_left hlt] at hj
          exact h.frames j g hj
        · rw [List.getElem?_concat_length] at hj
          cases hj
          rw [hf, hseq', wordGroup]
        · rw [List.getElem?_eq_none (by simpa using hgt)] at hj
          cases hj }

/-- R162, R34: the frame sent carries the counter and the last group of words popped. -/
theorem send {s t : State} (hl : LoopInv s) (h : FrameStream s) (e : execSend s = .next t) : FrameStream t := by
  obtain ⟨hp, d, a, _, _, -, rfl⟩ := execSend_next e
  obtain ⟨hr, hf, -⟩ := traceOf_send s.cfg.dataOff d s.frame a
  refine h.of_sent (f := s.frame) hp rfl rfl rfl ?_ ?_ ?_
  · simp [popped, hr]
  · simp [sent, hf]
  · rw [(hl.frame_eq hp).1, (hl.held_all (by rw [hp]; rfl)).words.1, wordGroup_last (h.counts_of_send hp).2]

/-- R188: the counter goes up with the cycle that ends. -/
theorem adv {s t : State} (hl : LoopInv s) (h : FrameStream s) (e : execAdv s = .next t) : FrameStream t := by
  obtain ⟨hp, rfl⟩ := execAdv_next e
  have hb : s.ph.building = true := by rw [hp]; rfl
  have hs := Phase.streaming_of_building hb
  have hone := h.advSent hp
  have hcount := h.count hs
  have hseq := h.counter hs
  rw [if_pos hp] at hcount hseq
  rw [filled_of_building hb, ← Nat.mul_succ, Nat.succ_eq_add_one, Nat.sub_add_cancel hone] at hcount
  exact
    { fresh := by rintro ⟨⟩
      advSent := by rintro ⟨⟩
      counter := fun _ => by
        have hlen : (sent s).length = (sent s).length - 1 + 1 := (Nat.sub_add_cancel hone).symm
        have : s.seq + 1 = s.cfg.seqInit + BitVec.ofNat 32 (sent s).length := by
          rw [hseq, BitVec.add_assoc, hlen, BitVec.ofNat_add]; rfl
        simpa [sent] using this
      count := fun _ => by simpa [popped, sent, filled, Phase.building, hl.index hb] using hcount
      enough := h.enough
      frames := h.frames }

theorem push {s t : State} {w : Word} (h : FrameStream s) (e : execPush w s = .next t) : FrameStream t := by
  obtain ⟨q, v, n, rfl, -⟩ := execPush_next e
  exact h.of_environment q v n s.answer s.agenda (by simp [popped]) (by simp [sent])

theorem kill {s t : State} (h : FrameStream s) (e : execKill s = .next t) : FrameStream t := by
  obtain ⟨-, rfl⟩ := execKill_next e
  obtain ⟨hr, hf, -⟩ := traceOf_quiet s.cfg.dataOff (evs := [.kill]) (by simp [Event.quiet])
  exact h.of_stop rfl (by simp [popped, hr]) (by simp [sent, hf]) (.inr rfl)

theorem rdOob {s t : State} {off : Word} (h : FrameStream s) (e : execRdOob off s = .next t) : FrameStream t := by
  obtain ⟨_, -, -, rfl⟩ := execRdOob_next e
  exact h.of_environment s.q s.ovf s.draws _ s.agenda rfl rfl

/-- The stream and the loop's invariant, which POLL, SEND and ADV need, are kept together. -/
theorem keptByTurns : KeptByTurns (fun s => LoopInv s ∧ FrameStream s) where
  agenda {s} rest h :=
    ⟨LoopInv.keptByTurns.agenda rest h.1, h.2.of_environment s.q s.ovf s.draws s.answer rest rfl rfl⟩
  init h e := ⟨h.1.init e, h.2.init e⟩
  poll h e := ⟨h.1.poll e, h.2.poll h.1 e⟩
  pop h e := ⟨h.1.pop e, h.2.pop e⟩
  buildFrame h e := ⟨h.1.buildFrame e, h.2.buildFrame e⟩
  send h e := ⟨h.1.send e, h.2.send h.1 e⟩
  adv h e := ⟨h.1.adv e, h.2.adv h.1 e⟩
  push h e := ⟨h.1.push e, h.2.push e⟩
  kill h e := ⟨h.1.kill e, h.2.kill e⟩
  rdOob h e := ⟨h.1.rdOob e, h.2.rdOob e⟩

end FrameStream

/-- Settles O50: each operation a turn can run keeps the stream, beside the loop's invariant. -/
theorem framesFollowTheStream : Obligations.FramesFollowTheStream := by
  intro s t hl hf h
  exact (FrameStream.keptByTurns.step ⟨hl, hf⟩ h).2

end Sys2Proof.Machine
end

section
/-!
PROOFS. The start of a run (10_state.md R29, R30, 70_reset_and_hazards.md R240, R242): its values, and the five
invariants.
-/
namespace Sys2Proof.Machine

/-- At the start of a run nothing is open, held, read or sent, and PH is `INIT`, for which the invariants claim little. -/
theorem loopInv_resetWith {c : Config} (q : List Word) (hn : 1 ≤ c.n) (ho : c.occOff ≠ c.dataOff) :
    LoopInv (State.resetWith c q) where
  oneWord := hn
  offsets := ho
  window := by rintro w ⟨⟩
  sinkDest := by rintro d ⟨⟩
  streaming := by rintro ⟨⟩
  index := by rintro ⟨⟩
  collected := by rintro ⟨⟩
  packed := by rintro (⟨⟨⟩⟩ | ⟨⟨⟩⟩)
  written := rfl

theorem frameStream_resetWith (c : Config) (q : List Word) : FrameStream (State.resetWith c q) where
  fresh _ := ⟨rfl, rfl⟩
  advSent := by rintro ⟨⟩
  counter := by rintro ⟨⟩
  count := by rintro ⟨⟩
  enough := Nat.le_refl 0
  frames := by rintro j f ⟨⟩

theorem sampleFlow_resetWith (c : Config) (q : List Word) : SampleFlow q (State.resetWith c q) :=
  fun _ _ => List.append_nil q

theorem popSafe_resetWith {c : Config} {q : List Word} (hd : c.depth < 2 ^ 32) (hq : q.length ≤ c.depth) :
    PopSafe (State.resetWith c q) where
  fifo := rfl
  depth := hd
  queue := hq
  safe _ := ⟨rfl, by rintro ⟨⟩⟩

/-- Settles O53: each of the five invariants, at the start of a run. -/
theorem invariantsHoldAtReset : Obligations.InvariantsHoldAtReset := by
  rintro c q ⟨-, ho, -, hn, -, hd, -⟩ hq
  exact ⟨loopInv_resetWith q hn ho, frameStream_resetWith c q, sampleFlow_resetWith c q, popSafe_resetWith hd hq,
    rfl, rfl⟩

/-- Settles O58: the values R30 gives the registers, and those R2 gives the reference parameters. -/
theorem resetHoldsTheSpecsValues : Obligations.ResetHoldsTheSpecsValues := by
  refine ⟨fun c q => ⟨rfl, rfl, rfl, rfl, rfl, rfl, rfl, rfl, rfl, fun j => ⟨rfl, rfl⟩⟩, rfl, ?_⟩
  exact ⟨rfl, rfl, rfl, rfl, rfl⟩

end Sys2Proof.Machine
end

section
/-!
PROOFS. The accesses to the register window (20_memory.md R42, 41_register_interface.md R105, R107): which registers an
operation reads, and where; and the byte order of a frame (20_memory.md R55).
-/
namespace Sys2Proof.Machine

/-- R42, R105, R107: between two states the trace grew, and every register read among the new events is of OCC or DATA,
at its byte address in the window that the first state holds open. -/
def OnlyRegisterReads (s t : State) : Prop :=
  ∃ new, t.trace = s.trace ++ new ∧ ∀ off addr v, Event.rd off addr v ∈ new →
    (off = s.cfg.occOff ∨ off = s.cfg.dataOff) ∧ ∃ w, s.win = some w ∧ addr = w.base + 4 * off.toNat

namespace OnlyRegisterReads

theorem of_noRead {s t : State} {evs : List Event} (ht : t.trace = s.trace ++ evs)
    (he : ∀ off addr v, Event.rd off addr v ∉ evs) : OnlyRegisterReads s t :=
  ⟨evs, ht, fun off addr v hm => absurd hm (he off addr v)⟩

theorem of_trace_eq {s t : State} (ht : t.trace = s.trace) : OnlyRegisterReads s t :=
  of_noRead (evs := []) (by simp [ht]) (by simp)

theorem of_read {s t : State} {w : Window} {off v : Word} (hoff : off = s.cfg.occOff ∨ off = s.cfg.dataOff)
    (hw : s.win = some w) (ht : t.trace = s.trace ++ [.rd off (w.addr off) v]) : OnlyRegisterReads s t := by
  refine ⟨_, ht, fun off' addr v' hm => ?_⟩
  cases List.mem_singleton.1 hm
  exact ⟨hoff, w, hw, rfl⟩

/-- Reads made one after the other under one window and one configuration. -/
theorem trans {s t u : State} (hst : OnlyRegisterReads s t) (htu : OnlyRegisterReads t u) (hcfg : t.cfg = s.cfg)
    (hwin : t.win = s.win) : OnlyRegisterReads s u := by
  obtain ⟨new, ht, hnew⟩ := hst
  obtain ⟨new', hu, hnew'⟩ := htu
  rw [hcfg, hwin] at hnew'
  refine ⟨new ++ new', by rw [hu, ht, List.append_assoc], fun off addr v hm => ?_⟩
  exact (List.mem_append.1 hm).elim (hnew off addr v) (hnew' off addr v)

end OnlyRegisterReads

/-- R105, R107: of the operations that are one step, the two reads, POLL and POP read one register, and no other
operation reads any. -/
theorem exec_onlyRegisterReads_of_not_pseudo {i : Instr} {s t : State} (hi : isPseudo i = false)
    (h : exec i s = .next t) : OnlyRegisterReads s t := by
  cases i with
  | nextWord | collect | cycle => cases hi
  | rdUndef | wr => cases h
  | rdOcc => obtain ⟨-, _, _, _, _, hw, rfl, -⟩ := execRdOcc_next h; exact .of_read (.inl rfl) hw rfl
  | poll => obtain ⟨-, _, _, _, _, hw, rfl, -⟩ := execPoll_next h; exact .of_read (.inl rfl) hw rfl
  | rdData => obtain ⟨-, _, _, _, _, _, _, hw, rfl, -⟩ := execRdData_next h; exact .of_read (.inr rfl) hw rfl
  | pop => obtain ⟨-, -, _, _, _, _, _, _, hw, rfl, -⟩ := execPop_next h; exact .of_read (.inr rfl) hw rfl
  | rdOob => obtain ⟨_, -, -, rfl⟩ := execRdOob_next h; exact .of_trace_eq rfl
  | packCtr => obtain ⟨-, rfl⟩ := execPackCtr_next h; exact .of_trace_eq rfl
  | packIq => obtain ⟨-, -, rfl⟩ := execPackIq_next h; exact .of_trace_eq rfl
  | buildFrame => obtain ⟨-, rfl⟩ := execBuildFrame_next h; exact .of_trace_eq rfl
  | adv => obtain ⟨-, rfl⟩ := execAdv_next h; exact .of_trace_eq rfl
  | riOpen => obtain ⟨-, -, _, _, _, rfl, -⟩ := execRiOpen_next h; exact .of_noRead rfl (by simp)
  | txOpen => obtain ⟨-, -, -, _, _, _, rfl, -⟩ := execTxOpen_next h; exact .of_noRead rfl (by simp)
  | send =>
    obtain ⟨-, _, _, _, _, -, rfl⟩ := execSend_next h
    exact .of_noRead rfl (by intros; split <;> simp)
  | init =>
    obtain ⟨-, ⟨-, _, -, rfl⟩ | ⟨-, _, _, _, rfl, -, hevs⟩⟩ := execInit_next h
    · exact .of_noRead rfl (by simp)
    · exact .of_noRead rfl (fun _ _ _ hm => by cases hevs _ hm)
  | fail cause =>
    obtain ⟨-, -, -, rfl⟩ := execFail_next h
    exact .of_noRead rfl (by cases cause <;> simp [failReport])
  | kill => obtain ⟨-, rfl⟩ := execKill_next h; exact .of_noRead rfl (by simp)
  | push => obtain ⟨_, _, _, rfl, -⟩ := execPush_next h; exact .of_noRead rfl (by simp)

/-- Past INIT, where no operation writes `WIN`, turns read OCC and DATA through one and the same window. INIT itself is
left out: after it, reads are made through a window that the state before it need not hold. -/
theorem kept_onlyRegisterReads : Kept (fun s t : State =>
    s.ph ≠ .init → (t.ph ≠ .init ∧ t.cfg = s.cfg ∧ t.win = s.win) ∧ OnlyRegisterReads s t) where
  refl _ hs := ⟨⟨hs, rfl, rfl⟩, .of_trace_eq rfl⟩
  trans _ _ _ hst htu hs := by
    obtain ⟨⟨ht, hcfg, hwin⟩, hreads⟩ := hst hs
    obtain ⟨⟨hu, hcfg', hwin'⟩, hreads'⟩ := htu ht
    exact ⟨⟨hu, hcfg'.trans hcfg, hwin'.trans hwin⟩, hreads.trans hreads' hcfg hwin⟩
  agenda _ _ hs := ⟨⟨hs, rfl, rfl⟩, .of_trace_eq rfl⟩
  answer _ _ hs := ⟨⟨hs, rfl, rfl⟩, .of_trace_eq rfl⟩
  basic _ _ _ hi h hs := by
    obtain ⟨ht, hwin, -⟩ := exec_handles_of_not_pseudo hi h hs
    exact ⟨⟨ht, exec_cfg_of_not_pseudo hi h, hwin⟩, exec_onlyRegisterReads_of_not_pseudo hi h⟩

/-- R127, R184, R186: the pseudo-operations begin in phase `POLL`. -/
theorem ph_of_pseudo {i : Instr} {s t : State} (hi : isPseudo i = true) (h : exec i s = .next t) : s.ph = .poll := by
  cases i with
  | nextWord | collect | cycle => exact (inPhase_eq_next.1 h).1
  | _ => cases hi

/-- Settles O19: an operation that is one step reads at most one of the two registers; a pseudo-operation is made of such
steps, and begins past INIT, so the window they read through is the one it found open. -/
theorem everyReadIsOfOccOrData : Obligations.EveryReadIsOfOccOrData := by
  intro i s t h
  cases hi : isPseudo i with
  | false => exact exec_onlyRegisterReads_of_not_pseudo hi h
  | true =>
    have hs : s.ph ≠ .init := by simp [ph_of_pseudo hi h]
    exact (kept_onlyRegisterReads.exec h hs).2

/-- R55: a sample pair, I before Q and each little-endian, is the little-endian word it came from. -/
theorem iqBytes_eq_le32 : iqBytes = le32 := funext iqBytes_eq

/-- R55: two little-endian halves, put together, are the little-endian word of the same four bytes. -/
theorem half16_append_half16 (b0 b1 b2 b3 : Byte) :
    (half16 b2 b3 ++ half16 b0 b1 : BitVec 32) = wordOfBytes b0 b1 b2 b3 :=
  (BitVec.append_assoc (x₁ := b3 ++ b2) (x₂ := b1) (x₃ := b0)).symm

/-- Settles O35: each part is the byte order of one word. -/
theorem frameIsLittleEndianWords : Obligations.FrameIsLittleEndianWords := by
  refine ⟨iqBytes_eq, fun c ws => ?_, half16_append_half16⟩
  rw [frameOf, iqBytes_eq_le32]

end Sys2Proof.Machine
end

section
/-!
PROOFS. The encoding (30_encoding.md R70, R79, R80): decoding undoes encoding, what decodes is well-formed and encodes
to the bytes taken, and a descriptor selects by the first matching row.
-/
namespace Sys2Proof

/-- Settles O1: the round trip of each operation is the lemma of its name in `Laws.Encoding`. -/
theorem decodeEncodeAgree : Obligations.DecodeEncodeAgree := fun
  | .riOpen base span => Laws.Encoding.riOpen base span
  | .rdOcc => Laws.Encoding.rdOcc
  | .rdData => Laws.Encoding.rdData
  | .rdUndef off => Laws.Encoding.rdUndef off
  | .rdOob off => Laws.Encoding.rdOob off
  | .wr off value => Laws.Encoding.wr off value
  | .poll => Laws.Encoding.poll
  | .pop => Laws.Encoding.pop
  | .nextWord => Laws.Encoding.nextWord
  | .packCtr c => Laws.Encoding.packCtr c
  | .packIq i w => Laws.Encoding.packIq i w
  | .buildFrame => Laws.Encoding.buildFrame
  | .txOpen d => Laws.Encoding.txOpen d
  | .send => Laws.Encoding.send
  | .init => Laws.Encoding.init
  | .collect => Laws.Encoding.collect
  | .adv => Laws.Encoding.adv
  | .cycle => Laws.Encoding.cycle
  | .fail cause status => Laws.Encoding.fail cause status
  | .kill => Laws.Encoding.kill
  | .push w => Laws.Encoding.push w

/-- Four bytes are the bytes of the word they make. -/
theorem bytesOfWord_wordOfBytes (b0 b1 b2 b3 : Byte) : bytesOfWord (wordOfBytes b0 b1 b2 b3) = [b0, b1, b2, b3] := by
  simp only [bytesOfWord, wordOfBytes, List.cons.injEq, and_true]
  refine ⟨BitVec.extractLsb'_append_eq_right, ?_, ?_, ?_⟩
  · rw [BitVec.extractLsb'_append_eq_of_le (xlo := b0) (by decide)]
    exact BitVec.extractLsb'_append_eq_right
  · rw [BitVec.extractLsb'_append_eq_of_le (xlo := b0) (by decide),
      BitVec.extractLsb'_append_eq_of_le (xlo := b1) (by decide)]
    exact BitVec.extractLsb'_append_eq_right
  · rw [BitVec.extractLsb'_append_eq_of_le (xlo := b0) (by decide),
      BitVec.extractLsb'_append_eq_of_le (xlo := b1) (by decide)]
    exact BitVec.extractLsb'_append_eq_left

/-- R70: a descriptor's bytes are those of its offset and its kind. -/
theorem descriptorBytes_eq (k : Bool) (off : Word) :
    descriptorBytes (descriptor k off) = bytesOfWord off ++ [if k then 1 else 0] :=
  descriptorBytes_descriptor k off

/-- R70: each row of the selection table gives an operation that is well-formed. -/
theorem wf_selectRead (c : Config) (off : Word) : (selectRead c off).wf c = true := by
  unfold selectRead
  split_ifs with hspan hocc hdata
  · simpa [Instr.wf] using hspan
  · subst hocc; simpa [Instr.wf] using hspan
  · subst hdata; simpa [Instr.wf, hocc] using hspan
  · simpa [Instr.wf, hocc, hdata] using hspan

/-- R70: the operation a read's descriptor selects has that descriptor as its encoding. -/
theorem encode_selectRead (c : Config) (off : Word) :
    encode c (selectRead c off) = some (.reg, descriptorBytes (descriptor false off)) := by
  unfold selectRead
  split_ifs with hspan hocc hdata
  · rfl
  · rw [hocc]; rfl
  · rw [hdata]; rfl
  · rfl

/-- R79: a byte that holds an operation's label is the encoding of that operation, which has no operands to check. -/
theorem encode_of_phaseOp {b : Byte} {i : Instr} (h : phaseOp b.toNat = .ok i) (c : Config) :
    i.wf c = true ∧ encode c i = some (.phase, [b]) := by
  have hb : BitVec.ofNat 8 b.toNat = b := by simp
  unfold phaseOp at h
  split at h <;> cases h
  all_goals next hn => rw [hn] at hb; subst hb; exact ⟨rfl, rfl⟩

/-- R70: all that format REG takes: the descriptor of a read, or that of a write and its VALUE. -/
theorem decodeReg_ok {c : Config} {bytes rest : List Byte} {i : Instr} (h : decodeReg c bytes = .ok (i, rest)) :
    (∃ off, i = selectRead c off ∧ bytes = descriptorBytes (descriptor false off) ++ rest) ∨
      ∃ off value, i = .wr off value ∧
        bytes = descriptorBytes (descriptor true off) ++ bytesOfWord value ++ rest := by
  unfold decodeReg at h
  split at h
  · next b0 b1 b2 b3 k tail =>
    split_ifs at h with hwrite hread
    · unfold decodeWrite at h
      split at h
      · cases h
        exact .inr ⟨_, _, rfl, by simp [descriptorBytes_eq, bytesOfWord_wordOfBytes, hwrite]⟩
      · cases h
    · cases h
      exact .inl ⟨_, rfl, by simp [descriptorBytes_eq, bytesOfWord_wordOfBytes, hread]⟩
  · cases h

/-- Settles O3: a byte of format PHASE is its operation's label; the bytes of format REG are its operation's descriptor,
with the VALUE of a write. -/
theorem decodedIsWellFormedAndReencodes : Obligations.DecodedIsWellFormedAndReencodes := by
  intro c f bytes rest i h
  cases f with
  | sub | pseudo | env => cases h
  | phase =>
    cases bytes with
    | nil => cases h
    | cons b tail =>
      cases hop : phaseOp b.toNat with
      | error e => simp [decode, decodePhase, hop] at h
      | ok j =>
        simp only [decode, decodePhase, hop] at h
        cases h
        obtain ⟨hwf, henc⟩ := encode_of_phaseOp hop c
        exact ⟨hwf, [b], henc, rfl⟩
  | reg =>
    obtain ⟨off, rfl, rfl⟩ | ⟨off, value, rfl, rfl⟩ := decodeReg_ok h
    · exact ⟨wf_selectRead c off, _, encode_selectRead c off, rfl⟩
    · exact ⟨rfl, _, rfl, rfl⟩

/-- R70: with both offsets inside the window and apart from each other, no two rows match one descriptor. -/
theorem selection_rows_exclude {c : Config} (k : Bool) (off : Word) (hin : Machine.offsetsInside c c.span = true)
    (hne : c.occOff ≠ c.dataOff) :
    List.Pairwise (fun p q : Prop => ¬ (p ∧ q))
      [k = true, k = false ∧ c.span ≤ off.toNat, k = false ∧ off = c.occOff, k = false ∧ off = c.dataOff,
        k = false ∧ off.toNat < c.span ∧ off ≠ c.occOff ∧ off ≠ c.dataOff] := by
  simp only [Machine.offsetsInside, Bool.and_eq_true, decide_eq_true_eq] at hin
  obtain ⟨hocc, hdata⟩ := hin
  have kinds : ∀ {p : Prop}, ¬ (k = true ∧ k = false ∧ p) := by
    rintro p ⟨rfl, hk, -⟩
    cases hk
  simp only [List.pairwise_cons, List.mem_cons, forall_eq_or_imp, List.not_mem_nil, false_imp_iff, implies_true,
    and_true, List.Pairwise.nil]
  refine ⟨⟨kinds, kinds, kinds, kinds⟩, ⟨?_, ?_, ?_⟩, ⟨?_, ?_⟩, ?_⟩
  · rintro ⟨⟨-, hspan⟩, -, rfl⟩; omega
  · rintro ⟨⟨-, hspan⟩, -, rfl⟩; omega
  · rintro ⟨⟨-, hspan⟩, -, hin, -⟩; omega
  · rintro ⟨⟨-, rfl⟩, -, heq⟩; exact hne heq
  · rintro ⟨⟨-, rfl⟩, -, -, hocc, -⟩; exact hocc rfl
  · rintro ⟨⟨-, rfl⟩, -, -, -, hdata⟩; exact hdata rfl

/-- R70: `OFF` is bits 31 to 0 of the descriptor. -/
theorem extractLsb'_descriptor (k : Bool) (off : Word) : (descriptor k off).extractLsb' 0 32 = off :=
  BitVec.extractLsb'_append_eq_right

/-- R70: `K` is bit 32 of the descriptor. -/
theorem getLsbD_descriptor_kind (k : Bool) (off : Word) : (descriptor k off).getLsbD 32 = k := by
  rw [descriptor_getLsbD]
  cases k <;> rfl

/-- Settles O4: a write by its `K`, a read by the table. -/
theorem descriptorSelectsByFirstMatchingRow : Obligations.DescriptorSelectsByFirstMatchingRow := by
  intro c k off value rest
  refine ⟨extractLsb'_descriptor k off, getLsbD_descriptor_kind k off, ?_, selection_rows_exclude k off⟩
  cases k with
  | true => exact decodeReg_write c off value rest
  | false =>
    rw [decode, decodeReg_read, selectRead, if_neg Bool.false_ne_true]
    split_ifs <;> rfl

/-- Settles O2: each word of the tables, decoded. -/
theorem specWordsDecode : Obligations.SpecWordsDecode := by
  unfold Obligations.SpecWordsDecode
  decide

/-- Settles O5: each label, and what the decoder makes of it. -/
theorem phaseLabelsSelectTheStep : Obligations.PhaseLabelsSelectTheStep :=
  ⟨⟨rfl, rfl, rfl, rfl, rfl, rfl, rfl, rfl⟩, fun _ _ => ⟨rfl, rfl, rfl, rfl, rfl, rfl, rfl, rfl⟩⟩

end Sys2Proof
end

section
/-!
PROOFS. The frame (30_encoding.md R75, R77): where each byte of the counter and of the words stands, and that a receiver
recovers the counter and the words from the bytes.
-/
namespace Sys2Proof.Machine

/-- Little-endian words one after the other: byte `k` of word `i` stands at `4 * i + k`. -/
theorem getElem?_flatMap_le32 {ws : List Word} {i : Nat} {w : Word} (h : ws[i]? = some w) {k : Nat} (hk : k < 4) :
    (ws.flatMap le32)[4 * i + k]? = (le32 w)[k]? := by
  induction ws generalizing i with
  | nil => cases h
  | cons x xs ih =>
    rw [List.flatMap_cons]
    cases i with
    | zero =>
      cases h
      rw [Nat.mul_zero, Nat.zero_add, List.getElem?_append_left (by simpa using hk)]
    | succ i =>
      rw [List.getElem?_append_right (by simp; omega), le32_length, ← ih h]
      congr 1
      omega

/-- R75: byte `k` of word `i` stands at `4 + 4 * i + k` of the frame. -/
theorem getElem?_frameOf_word (c : Word) {ws : List Word} {i : Nat} {w : Word} (h : ws[i]? = some w) {k : Nat}
    (hk : k < 4) : (frameOf c ws)[4 + k + 4 * i]? = (le32 w)[k]? := by
  rw [frameOf, iqBytes_eq_le32, List.getElem?_append_right (by simp; omega), le32_length,
    ← getElem?_flatMap_le32 h hk]
  congr 1
  omega

/-- Settles O33: the counter's four bytes come first, then those of each word in turn. -/
theorem frameLayoutByteByByte : Obligations.FrameLayoutByteByByte := by
  intro c ws
  refine ⟨length_frameOf c ws, fun h => by rw [length_frameOf, h], rfl, rfl, rfl, rfl, fun i w h => ?_⟩
  exact ⟨getElem?_frameOf_word c h (k := 0) (by decide), getElem?_frameOf_word c h (k := 1) (by decide),
    getElem?_frameOf_word c h (k := 2) (by decide), getElem?_frameOf_word c h (k := 3) (by decide)⟩

/-- A byte of a word, as the receiver's arithmetic has it. -/
theorem toNat_byte (w : Word) (a : Nat) : (w.extractLsb' a 8).toNat = w.toNat / 2 ^ a % 2 ^ 8 := by
  rw [BitVec.extractLsb'_toNat, Nat.shiftRight_eq_div_pow]

/-- R73: lane 0 of a word, by its mask. -/
theorem toNat_and_mask (w : Word) : (w &&& 0xFFFF).toNat = w.toNat % 2 ^ 16 := by
  rw [BitVec.toNat_and]
  exact Nat.and_two_pow_sub_one_eq_mod _ 16

/-- R73: lane 1 of a word, by its shift and mask. -/
theorem toNat_shift_and_mask (w : Word) : ((w >>> 16) &&& 0xFFFF).toNat = w.toNat / 2 ^ 16 := by
  rw [toNat_and_mask, BitVec.toNat_ushiftRight, Nat.shiftRight_eq_div_pow]
  omega

/-- R77: the receiver's word from four bytes is the word whose little-endian bytes they are. -/
theorem sampleWords_le32 (w : Word) (rest : List Byte) : sampleWords (le32 w ++ rest) = w :: sampleWords rest := by
  simp [le32, sampleWords, half16_append_half16]

/-- R77: a receiver recovers the words from their bytes. -/
theorem sampleWords_flatMap_le32 (ws : List Word) : sampleWords (ws.flatMap le32) = ws := by
  induction ws with
  | nil => rfl
  | cons w ws ih => rw [List.flatMap_cons, sampleWords_le32, ih]

/-- R77: decoding undoes encoding. -/
theorem readFrame_frameOf (c : Word) (ws : List Word) : readFrame (frameOf c ws) = some (c, ws) := by
  rw [frameOf, iqBytes_eq_le32]
  simp [le32, readFrame, half16_append_half16, sampleWords_flatMap_le32]

/-- Settles O34: each byte of the frame is a digit to the base `2 ^ 8` of the counter or of a word. -/
theorem receiverRecoversCounterAndWords : Obligations.ReceiverRecoversCounterAndWords := by
  intro c ws b hb
  have digit : ∀ {j a : Nat} {w : Word}, (frameOf c ws)[j]? = some (w.extractLsb' a 8) →
      b j = w.toNat / 2 ^ a % 2 ^ 8 := by
    intro j a w h
    rw [hb, List.getD_eq_getElem?_getD, h, Option.getD_some, toNat_byte]
  obtain ⟨hlen, -, h0, h1, h2, h3, hword⟩ := frameLayoutByteByByte c ws
  refine ⟨by omega, ?_, fun i w hw => ?_, readFrame_frameOf c ws⟩
  · rw [digit h0, digit h1, digit h2, digit h3]
    omega
  · obtain ⟨h0, h1, h2, h3⟩ := hword i w hw
    rw [toNat_and_mask, toNat_shift_and_mask, digit h0, digit h1, digit h2, digit h3]
    omega

end Sys2Proof.Machine
end

section
/-!
PROOFS. When an operation runs (30_encoding.md R83, R85): the turn that the pseudo-operations are made of is the step,
and an operation outside its phase is refused.
-/
namespace Sys2Proof.Machine

/-- Settles O7: the case split over the turns is `step_eq_turn`. -/
theorem turnsAreSteps : Obligations.TurnsAreSteps := step_eq_turn

/-- R83: in another phase than its own, an operation is refused. -/
theorem inPhase_of_ne {p : Phase} {s : State} (h : s.ph ≠ p) (r : Result) :
    inPhase p s r = .refused (.notEnabled s.ph) :=
  if_neg h

/-- R83: an operation that its own phase refuses is refused in every phase. -/
theorem inPhase_refused (p : Phase) (s : State) :
    inPhase p s (.refused (.notEnabled s.ph)) = .refused (.notEnabled s.ph) :=
  ite_self _

/-- R100: the window is opened once. -/
theorem execRiOpen_of_open {s : State} (h : s.win ≠ none) (base span : Nat) :
    execRiOpen base span s = .refused (.notEnabled s.ph) := by
  obtain ⟨w, hw⟩ := Option.ne_none_iff_exists'.1 h
  rw [execRiOpen, hw]
  exact inPhase_refused .init s

/-- R160: the sink is opened after the window, and once. -/
theorem execTxOpen_of_not_next {s : State} (h : s.win = none ∨ s.txh ≠ none) (d : Dest) :
    execTxOpen d s = .refused (.notEnabled s.ph) := by
  rw [execTxOpen]
  split
  · next hw ht => simp [hw, ht] at h
  · exact inPhase_refused .init s

/-- Settles O12: each operation of the sequencer is guarded by its phase, and an open by the handles also. -/
theorem operationsOutsideTheirPhaseAreRefused : Obligations.OperationsOutsideTheirPhaseAreRefused := by
  intro base span status k d c x cause s
  refine ⟨fun h => ?_, fun h => ?_, fun h => ?_, fun h => ?_, fun h => ?_, fun h => ?_, fun h => ?_, fun h => ?_⟩
  · exact ⟨inPhase_of_ne h _, inPhase_of_ne h _, inPhase_of_ne h _, inPhase_of_ne h _⟩
  · exact ⟨inPhase_of_ne h _, inPhase_of_ne h _, inPhase_of_ne h _, inPhase_of_ne h _⟩
  · exact inPhase_of_ne h _
  · exact ⟨inPhase_of_ne h _, inPhase_of_ne h _, inPhase_of_ne h _⟩
  · exact inPhase_of_ne h _
  · exact inPhase_of_ne h _
  · exact execRiOpen_of_open h base span
  · exact execTxOpen_of_not_next h d

end Sys2Proof.Machine
end

section
/-!
PROOFS. The Register Interface (41_register_interface.md): one equation for each way its operations, POLL and POP go,
and what each of them answers and stops with.
-/
namespace Sys2Proof.Machine

/-! ### The guards, where they stop -/

/-- R103: without an open window there is no register read. -/
theorem withWindow_of_none {s : State} (h : s.win = none) (k : Window → Result) :
    withWindow s k = .fault .windowNotOpen := by
  rw [withWindow, h]

/-- R9: after `EXIT` or KILL there is no register read. -/
theorem whileAlive_of_terminal {s : State} (h : s.ph.terminal = true) (r : Result) :
    whileAlive s r = .fault (.runEnded s.ph) :=
  if_pos h

/-! ### The operations, by their guards -/

section Open
variable {s : State} {w : Window} (hw : s.win = some w)
include hw

theorem execRdOcc_of_open : execRdOcc s = whileAlive s (.next (readOcc w s).2) := withWindow_of_some hw _

theorem execRdData_of_open : execRdData s = whileAlive s (.next (readData w s).2) := withWindow_of_some hw _

theorem execRdOcc_eq (ha : s.ph.terminal = false) : execRdOcc s = .next (readOcc w s).2 := by
  rw [execRdOcc_of_open hw, whileAlive_of_alive ha]

theorem execRdData_eq (ha : s.ph.terminal = false) : execRdData s = .next (readData w s).2 := by
  rw [execRdData_of_open hw, whileAlive_of_alive ha]

/-- R109: outside the window the caller is given the error, inside it the operation is not to be issued. -/
theorem execRdOob_eq (off : Word) :
    execRdOob off s = if w.span ≤ off.toNat then .next { s with answer := .error (.boundsAtRead off) }
      else .refused .badOperand :=
  withWindow_of_some hw _

theorem execPoll_eq (hp : s.ph = .poll) : execPoll s = .next (pollDone (readOcc w s).1 (readOcc w s).2) := by
  rw [execPoll, inPhase_of_eq hp, withWindow_of_some hw]

theorem execPop_eq (hp : s.ph = .pop) :
    execPop s = if s.idx < s.cfg.n then .next (popDone (readData w s).1 (readData w s).2)
      else .fault (.indexOutOfRange s.idx) := by
  rw [execPop, inPhase_of_eq hp, withWindow_of_some hw]

end Open

/-- R121: the latch, and the next phase. -/
theorem pollDone_eq (v : Word) (s : State) :
    pollDone v s = { s with occLast := v, occHeld := true, ph := if v = 0 then .poll else .pop } := by
  by_cases hv : v = 0 <;> simp [pollDone, State.goto, wordAvailable, hv]

/-- R124: the store, the index and the next phase. -/
theorem popDone_eq (v : Word) (s : State) :
    popDone v s = { s with
      wbuf := putCell s.wbuf s.idx v
      idx := if s.idx = s.cfg.n - 1 then 0 else s.idx + 1
      ph := if s.idx = s.cfg.n - 1 then .pack else .poll } := by
  by_cases hl : s.idx = s.cfg.n - 1 <;> simp [popDone, State.goto, lastWord, hl]

/-- Settles O13: each operation stops at the first of its guards that does not hold. -/
theorem missingHandlesAndBadIndicesStop : Obligations.MissingHandlesAndBadIndicesStop := by
  intro off x k s
  refine ⟨fun hw => ⟨withWindow_of_none hw _, withWindow_of_none hw _, withWindow_of_none hw _, fun hp => ?_,
    fun hp => ?_⟩, fun hw ht => ?_, fun hp ht => ?_, fun hp hw hi => ?_, fun hp hk => ?_, fun w hw hin => ?_⟩
  · exact (inPhase_of_eq hp _).trans (withWindow_of_none hw _)
  · exact (inPhase_of_eq hp _).trans (withWindow_of_none hw _)
  · obtain ⟨w, hw⟩ := Option.ne_none_iff_exists'.1 hw
    exact ⟨(execRdOcc_of_open hw).trans (whileAlive_of_terminal ht _),
      (execRdData_of_open hw).trans (whileAlive_of_terminal ht _)⟩
  · rw [exec, execSend, inPhase_of_eq hp, ht]
  · obtain ⟨w, hw⟩ := Option.ne_none_iff_exists'.1 hw
    exact (execPop_eq hw hp).trans (if_neg hi.not_gt)
  · exact (inPhase_of_eq hp _).trans (if_neg hk.not_gt)
  · exact (execRdOob_eq hw off).trans (if_neg hin.not_ge)

/-! ### RI_OPEN (R100, R101, R102) -/

theorem offsetsInside_iff {c : Config} {span : Nat} :
    offsetsInside c span = true ↔ c.occOff.toNat < span ∧ c.dataOff.toNat < span := by
  rw [offsetsInside, Bool.and_eq_true, decide_eq_true_eq, decide_eq_true_eq]

theorem execRiOpen_eq {s : State} (hp : s.ph = .init) (hw : s.win = none) (base span : Nat) :
    execRiOpen base span s = .next (openWindow base span s).2 := by
  rw [execRiOpen, inPhase_of_eq hp, hw]

/-- R102: the check comes first, and the platform is not consulted. -/
theorem openWindow_of_outside {s : State} {span : Nat} (h : ¬ offsetsInside s.cfg span = true) (base : Nat) :
    openWindow base span s = (some .boundsAtOpen, openRiFails base span .boundsAtOpen s) :=
  if_neg h

theorem openWindow_of_cause {s : State} {span : Nat} {c : Cause} (h : offsetsInside s.cfg span = true)
    (hc : riCause s.riAnswer = some c) (base : Nat) :
    openWindow base span s = (some c, openRiFails base span c s) := by
  rw [openWindow, if_pos h, hc]

theorem openWindow_of_ok {s : State} {span : Nat} (h : offsetsInside s.cfg span = true) (hr : s.riAnswer = .ok)
    (base : Nat) :
    openWindow base span s =
      (none, (State.emit { s with win := some (Window.mk base span) } (.openRi base span none)).give .opened) := by
  rw [openWindow, if_pos h, hr, riCause]

/-- Settles O14: the check fails, the platform refuses, or the window opens. -/
theorem riOpenChecksThenOpens : Obligations.RiOpenChecksThenOpens := by
  intro base span s hp hw
  rw [← offsetsInside_iff, exec, execRiOpen_eq hp hw]
  refine ⟨fun hout => ?_, fun hin => ⟨fun c hc => ?_, fun hok => ?_⟩⟩
  · rw [openWindow_of_outside hout]; rfl
  · rw [openWindow_of_cause hin hc]; rfl
  · rw [openWindow_of_ok hin hok]; rfl

/-! ### The reads (R104 to R110) -/

/-- Settles O15: the read is `readOcc`, and `readOcc_spec` says what it answers and leaves. -/
theorem occReadReturnsTheQueueLength : Obligations.OccReadReturnsTheQueueLength := by
  intro w s hw ha
  obtain ⟨v, src, n, he, hfifo, hscript, hend⟩ := readOcc_spec w s
  refine ⟨_, v, execRdOcc_eq hw ha, ?_⟩
  rw [he]
  refine ⟨fun hf => ?_, hscript, hend, rfl⟩
  obtain ⟨hv, hsrc, hn⟩ := hfifo hf
  exact ⟨hv, hsrc.trans hf.symm, hn⟩

/-- Settles O16: the read is `readData`, and `readData_spec` says what it answers and leaves. -/
theorem dataReadPopsTheHead : Obligations.DataReadPopsTheHead := by
  intro w s hw ha
  obtain ⟨v, q, u, src, n, he, hfifo, hscript, hend, -⟩ := readData_spec w s
  refine ⟨_, v, execRdData_eq hw ha, ?_⟩
  rw [he]
  refine ⟨fun hf => ?_, hscript, hend, rfl⟩
  obtain ⟨hsrc, hpop⟩ := hfifo hf
  exact ⟨hsrc.trans hf.symm, hpop⟩

/-- Settles O17: each is refused before it looks at the state. -/
theorem undefinedReadsAndWritesAreRefused : Obligations.UndefinedReadsAndWritesAreRefused :=
  fun _ _ _ => ⟨rfl, rfl⟩

/-- Settles O18: the offset is not below the span. -/
theorem outOfWindowReadRaisesBoundsError : Obligations.OutOfWindowReadRaisesBoundsError := by
  intro off w s hw hout
  exact (execRdOob_eq hw off).trans (if_pos hout)

/-- Settles O20: POLL and RD_OCC make the same `readOcc`, POP and RD_DATA the same `readData`, and a read leaves the
registers that POP goes on to use. -/
theorem pollAndPopAreOneReadEach : Obligations.PollAndPopAreOneReadEach := by
  intro w s hw
  refine ⟨fun hp => ?_, fun hp hi => ?_⟩
  · obtain ⟨v, src, n, he, -⟩ := readOcc_spec w s
    refine ⟨_, v, execRdOcc_eq hw (by rw [hp]; rfl), ?_⟩
    rw [exec, execPoll_eq hw hp, he, pollDone_eq]
    exact ⟨rfl, rfl⟩
  · obtain ⟨v, q, u, src, n, he, -⟩ := readData_spec w s
    refine ⟨_, v, execRdData_eq hw (by rw [hp]; rfl), ?_⟩
    rw [exec, execPop_eq hw hp, if_pos hi, he, popDone_eq]
    exact ⟨rfl, rfl⟩

end Sys2Proof.Machine
end

section
/-!
PROOFS. The steps of the Fifo Reader (42_fifo_reader.md R121, R124): what POLL and POP read against the FIFO and against
an injected source (R128), and where they go.
-/
namespace Sys2Proof.Machine

/-! ### The reads, by what serves them -/

/-- R104: the FIFO answers with the length of the queue. -/
theorem readOcc_of_fifo (w : Window) {s : State} (hf : s.source = .fifo) :
    readOcc w s = (BitVec.ofNat 32 s.q.length, s.readDone w s.cfg.occOff (BitVec.ofNat 32 s.q.length)) := by
  rw [readOcc, hf]

/-- R128: a script answers with its next word. -/
theorem readOcc_of_script (w : Window) {s : State} {v : Word} {occ data : List Word}
    (hs : s.source = .script (v :: occ) data) :
    readOcc w s = (v, State.readDone { s with source := .script occ data } w s.cfg.occOff v) := by
  rw [readOcc, hs]

/-- R106: the FIFO answers with the head of the queue, and pops it. -/
theorem readData_of_fifo (w : Window) {s : State} {x : Word} {rest : List Word} (hf : s.source = .fifo)
    (hq : s.q = x :: rest) :
    readData w s = (x, State.readDone { s with q := rest } w s.cfg.dataOff x) := by
  rw [readData, hf, hq]

/-- R128: a script answers with its next word. -/
theorem readData_of_script (w : Window) {s : State} {d : Word} {occ data : List Word}
    (hs : s.source = .script occ (d :: data)) :
    readData w s = (d, State.readDone { s with source := .script occ data } w s.cfg.dataOff d) := by
  rw [readData, hs]

/-! ### POLL and POP -/

/-- Settles O21: the one read of OCC is the FIFO's, and POLL decides on the value it gives. -/
theorem pollReadsOnceAndDecides : Obligations.PollReadsOnceAndDecides := by
  rintro w s v hp hw hf rfl
  rw [exec, execPoll_eq hw hp, readOcc_of_fifo w hf, pollDone_eq]
  rfl

/-- Settles O22: the one read of OCC is the script's, and POLL decides on the value it gives. -/
theorem pollDecidesOnAnyInjectedAnswer : Obligations.PollDecidesOnAnyInjectedAnswer := by
  intro w s v occ data hp hw hs
  rw [exec, execPoll_eq hw hp, readOcc_of_script w hs, pollDone_eq]
  rfl

/-- Settles O23: `readData_spec` says what the one read of DATA answers and leaves, and POP stores that word. -/
theorem popStoresTheWord : Obligations.PopStoresTheWord := by
  intro w s hp hw hi
  obtain ⟨v, q, u, src, n, he, hfifo, hscript, hend, -⟩ := readData_spec w s
  refine ⟨_, v, (execPop_eq hw hp).trans (if_pos hi), ?_⟩
  rw [he, popDone_eq]
  refine ⟨cellAt_putCell_same _ _ _, fun j hj => cellAt_putCell_other _ _ hj, fun hl => ⟨if_pos hl, if_pos hl⟩,
    fun hl => ⟨if_neg hl, if_neg hl⟩, fun hf => ?_, hscript, hend, rfl⟩
  obtain ⟨hsrc, hpop⟩ := hfifo hf
  exact ⟨hsrc.trans hf.symm, hpop⟩

end Sys2Proof.Machine
end

section
/-!
PROOFS. NEXT_WORD (42_fifo_reader.md R122, R123, R127): the poll loop against each source, the pop that follows it, and
that a word is returned only when it has been read.
-/
namespace Sys2Proof.Machine

/-! ### Turns -/

/-- A turn that is taken uses up one of those allowed. -/
theorem turnsWhile_of_turn {p : Phase} {s t : State} {n : Nat} (hp : s.ph = p) (ht : turn s = .next t) :
    turnsWhile p (n + 1) s = turnsWhile p n t := by
  rw [turnsWhile, if_pos hp, ht, andThen_next]

/-- R123: against the FIFO the turns to wait for are those listed and one more. -/
theorem leavePhase_of_fifo {s : State} (hf : s.source = .fifo) (p : Phase) :
    leavePhase p s = turnsWhile p (s.agenda.length + 1) s := by
  rw [leavePhase, patience, hf]; rfl

/-- R128: against a script the turns to wait for are one for each of its answers also. -/
theorem leavePhase_of_script {s : State} {occ data : List Word} (hs : s.source = .script occ data) (p : Phase) :
    leavePhase p s = turnsWhile p (s.agenda.length + occ.length + 1) s := by
  rw [leavePhase, patience, hs]

/-- The sequencer's turn in phase `POLL` is a POLL. -/
theorem seqTurn_of_poll {s : State} (hp : s.ph = .poll) : seqTurn s = exec .poll s := by
  rw [seqTurn, hp]; rfl

/-- With no turn listed, the turn in phase `POLL` is a POLL. -/
theorem turn_poll_of_nil {s : State} (hp : s.ph = .poll) (ha : s.agenda = []) : turn s = exec .poll s :=
  (turn_nil ha).trans (seqTurn_of_poll hp)

/-- A listed turn of the sequencer in phase `POLL` is a POLL. -/
theorem turn_poll_of_seq {s : State} {rest : List Turn} (hp : s.ph = .poll) (ha : s.agenda = .seq :: rest) :
    turn s = exec .poll { s with agenda := rest } := by
  rw [turn, ha]
  exact seqTurn_of_poll hp

/-- R194: a listed push into a queue that is not full appends the word. -/
theorem turn_of_push {s : State} {x : Word} {rest : List Turn} (ha : s.agenda = .push x :: rest)
    (hq : s.q.length < s.cfg.depth) :
    turn s = .next { s with agenda := rest, q := s.q ++ [x], trace := s.trace ++ [.push x] } := by
  rw [turn, ha]
  exact if_pos hq

/-! ### The poll loop, then the pop -/

/-- R122: against a script that answers 0 for `k` polls and then a non-zero value, `k + 1` polls leave phase `POLL`. -/
theorem turnsWhile_poll_of_script {w : Window} {v : Word} (hv : v ≠ 0) {occ data : List Word} (n k : Nat)
    {s : State} (hp : s.ph = .poll) (hw : s.win = some w) (ha : s.agenda = [])
    (hs : s.source = .script (List.replicate k 0 ++ v :: occ) data) :
    turnsWhile .poll (n + k + 1) s = .next { s with
      source := .script occ data, occLast := v, occHeld := true, ph := .pop, answer := .value v
      trace := s.trace ++ List.replicate k (rdEvent w s.cfg.occOff 0) ++ [rdEvent w s.cfg.occOff v] } := by
  induction k generalizing s with
  | zero =>
    have hpoll := pollDecidesOnAnyInjectedAnswer w s v occ data hp hw hs
    rw [if_neg hv] at hpoll
    rw [turnsWhile_of_turn hp ((turn_poll_of_nil hp ha).trans hpoll), turnsWhile_of_ne (by simp)]
    simp
  | succ k ih =>
    have hpoll := pollDecidesOnAnyInjectedAnswer w s 0 _ data hp hw hs
    rw [turnsWhile_of_turn hp ((turn_poll_of_nil hp ha).trans hpoll)]
    refine Eq.trans (ih rfl hw ha rfl) ?_
    simp [List.replicate_succ]

/-- R123, R194: against an empty FIFO whose producer pushes after `k` turns of the sequencer, `k` polls read 0, and the
poll after the push reads 1. -/
theorem turnsWhile_poll_until_push {w : Window} {x : Word} (k : Nat) {s : State} (hp : s.ph = .poll)
    (hw : s.win = some w) (hf : s.source = .fifo) (hq : s.q = []) (hd : 1 ≤ s.cfg.depth)
    (ha : s.agenda = List.replicate k .seq ++ [.push x]) :
    turnsWhile .poll (k + 2) s = .next { s with
      agenda := [], q := [x], occLast := 1, occHeld := true, ph := .pop, answer := .value 1
      trace := s.trace ++ List.replicate k (rdEvent w s.cfg.occOff 0) ++
        [.push x, rdEvent w s.cfg.occOff 1] } := by
  induction k generalizing s with
  | zero =>
    have hpush := turn_of_push ha (by rw [hq]; exact hd)
    rw [hq] at hpush
    rw [turnsWhile_of_turn hp hpush]
    have hpoll := pollReadsOnceAndDecides w
      { s with agenda := [], q := [x], trace := s.trace ++ [.push x] } 1 hp hw hf rfl
    refine Eq.trans (turnsWhile_of_turn hp (Eq.trans (turn_poll_of_nil hp rfl) hpoll)) ?_
    simp [turnsWhile]
  | succ k ih =>
    have hpoll := pollReadsOnceAndDecides w { s with agenda := List.replicate k .seq ++ [.push x] } 0 hp hw hf
      (by simp [hq])
    rw [turnsWhile_of_turn hp ((turn_poll_of_seq hp ha).trans hpoll)]
    refine Eq.trans (ih rfl hw hf hq hd rfl) ?_
    simp [List.replicate_succ]

/-- R124: POP leaves its phase, and the run goes on. -/
theorem popDone_ph (v : Word) (s : State) : (popDone v s).ph ≠ .pop ∧ (popDone v s).ph.terminal = false := by
  rw [popDone_eq]
  dsimp only
  split
  · exact ⟨by decide, rfl⟩
  · exact ⟨by decide, rfl⟩

/-- R124: with no other agent to move, what follows the poll loop is one POP, which is a return. -/
theorem popTurns_eq {w : Window} {s : State} (hp : s.ph = .pop) (hw : s.win = some w) (ha : s.agenda = [])
    (hi : s.idx < s.cfg.n) : popTurns s = .next (popDone (readData w s).1 (readData w s).2) := by
  obtain ⟨hne, hterm⟩ := popDone_ph (readData w s).1 (readData w s).2
  have hpop : seqTurn s = .next (popDone (readData w s).1 (readData w s).2) := by
    rw [seqTurn, hp]
    exact (execPop_eq hw hp).trans (if_pos hi)
  have hleave := leavePhase_of_step ha hpop (by rwa [hp])
  rw [hp] at hleave
  rw [popTurns, if_pos hp, hleave, andThen_next, popReturn, if_neg (by simp [hterm])]

/-- R127: `POLL^(k+1) ; POP`. With no other agent to move after the poll loop, NEXT_WORD returns the word of the one
read of DATA, and POP stores it and moves `IDX` and `PH`. -/
theorem nextWord_of_leavePhase {w : Window} {s m : State} {x : Word} {q : List Word} {src : Source} (hs : s.ph = .poll)
    (hleave : leavePhase .poll s = .next m) (hp : m.ph = .pop) (hw : m.win = some w) (ha : m.agenda = [])
    (hi : m.idx < m.cfg.n)
    (hread : readData w m = (x, State.readDone { m with q := q, source := src } w m.cfg.dataOff x)) :
    ∃ t, exec .nextWord s = .next t ∧ cellAt t.wbuf m.idx = some x ∧
      (∀ j, j ≠ m.idx → cellAt t.wbuf j = cellAt m.wbuf j) ∧
      t = { m with
        q := q
        source := src
        wbuf := t.wbuf
        idx := if m.idx = m.cfg.n - 1 then 0 else m.idx + 1
        ph := if m.idx = m.cfg.n - 1 then .pack else .poll
        answer := .value x
        trace := m.trace ++ [rdEvent w m.cfg.dataOff x] } := by
  have hexec : exec .nextWord s = .next (popDone (readData w m).1 (readData w m).2) := by
    rw [exec, execNextWord, inPhase_of_eq hs, nextWordTurns, hleave, andThen_next, popTurns_eq hp hw ha hi]
  rw [hread, popDone_eq] at hexec
  exact ⟨_, hexec, cellAt_putCell_same _ _ _, fun j hj => cellAt_putCell_other _ _ hj, rfl⟩

/-- Settles O24: the script's answers are the turns NEXT_WORD waits for, so the loop reaches the non-zero one. -/
theorem nextWordReturnsAfterTheFirstNonZeroPoll : Obligations.NextWordReturnsAfterTheFirstNonZeroPoll := by
  intro w s k v d occ data hp hw ha hi hv hs
  have hlen : s.agenda.length + (List.replicate k 0 ++ v :: occ).length + 1 = occ.length + 1 + k + 1 := by
    simp [ha]; omega
  have hleave := leavePhase_of_script hs .poll
  rw [hlen, turnsWhile_poll_of_script hv (occ.length + 1) k hp hw ha hs] at hleave
  obtain ⟨t, he, hword, hother, ht⟩ := nextWord_of_leavePhase hp hleave rfl hw ha hi (readData_of_script w rfl)
  exact ⟨t, he, hword, hother, ht.trans (by simp)⟩

/-- R26: the length of a queue that fits the register and holds a word does not read as 0. -/
theorem ofNat_length_ne_zero {q : List Word} (hq : q ≠ []) (hl : q.length < 2 ^ 32) :
    BitVec.ofNat 32 q.length ≠ 0 := by
  intro h
  have hlen := congrArg BitVec.toNat h
  rw [BitVec.toNat_ofNat, Nat.mod_eq_of_lt hl] at hlen
  exact hq (List.length_eq_zero_iff.1 hlen)

/-- Settles O25: the first poll reads a count that is not 0, and the pop takes the head. -/
theorem nextWordTakesTheHeadOfTheQueue : Obligations.NextWordTakesTheHeadOfTheQueue := by
  intro w s x rest hp hw hf ha hi hq hl
  have hpoll := pollReadsOnceAndDecides w s _ hp hw hf rfl
  rw [if_neg (ofNat_length_ne_zero (by simp [hq]) hl)] at hpoll
  have hleave := leavePhase_of_step ha ((seqTurn_of_poll hp).trans hpoll) (by simp [hp])
  rw [hp] at hleave
  obtain ⟨t, he, hword, hother, ht⟩ := nextWord_of_leavePhase hp hleave rfl hw ha hi (readData_of_fifo w hf hq)
  exact ⟨t, he, hword, hother, ht.trans (by simp)⟩

/-- Settles O27: the turns listed are those NEXT_WORD waits for, so the loop reaches the poll after the push. -/
theorem nextWordWaitsForTheProducer : Obligations.NextWordWaitsForTheProducer := by
  intro w s k x hp hw hf hq hi hd ha
  have hlen : s.agenda.length + 1 = k + 2 := by simp [ha]
  have hleave := leavePhase_of_fifo hf .poll
  rw [hlen, turnsWhile_poll_until_push k hp hw hf hq hd ha] at hleave
  obtain ⟨t, he, hword, hother, ht⟩ := nextWord_of_leavePhase hp hleave rfl hw rfl hi (readData_of_fifo w hf rfl)
  exact ⟨t, he, hword, hother, ht.trans (by simp [hq])⟩

/-! ### A word is returned only when it has been read -/

/-- A turn is the operation of the phase, or one of another agent, which the agenda lists and which pops nothing: the
phase stays as it is, or a KILL ends the run. -/
theorem turn_next_sequencer_or_listed {s t : State} (h : turn s = .next t) :
    (∃ i rest, phaseInstr s.ph = some i ∧ exec i { s with agenda := rest } = .next t) ∨
      (s.agenda.length = t.agenda.length + 1 ∧ popped t = popped s ∧ (t.ph = s.ph ∨ t.ph = .halted)) := by
  obtain ⟨i, rest, he, ⟨hi, -⟩ | ⟨x, rfl, ha⟩ | ⟨rfl, ha⟩ | ⟨_, off, rfl, ha⟩⟩ := turn_next h
  · exact .inl ⟨i, rest, hi, he⟩
  · obtain ⟨_, _, _, rfl, -⟩ := execPush_next he
    exact .inr ⟨by simp [ha], by simp [popped], .inl rfl⟩
  · obtain ⟨-, rfl⟩ := execKill_next he
    exact .inr ⟨by simp [ha], by simp [popped, readsOf], .inr rfl⟩
  · obtain ⟨_, -, -, rfl⟩ := execRdOob_next he
    exact .inr ⟨by simp [ha], rfl, .inl rfl⟩

/-- No turn of the poll loop reads DATA. -/
theorem popped_turnsWhile_poll {n : Nat} {s t : State} (hne : s.cfg.occOff ≠ s.cfg.dataOff)
    (h : turnsWhile .poll n s = .next t) : popped t = popped s := by
  induction n generalizing s with
  | zero => cases h; rfl
  | succ n ih =>
    by_cases hp : s.ph = .poll
    · rw [turnsWhile, if_pos hp] at h
      obtain ⟨m, hm, h⟩ := andThen_eq_next.1 h
      have hpopped : popped m = popped s := by
        rcases turn_next_sequencer_or_listed hm with ⟨i, rest, hi, he⟩ | ⟨-, hpopped, -⟩
        · rw [hp] at hi
          cases hi
          obtain ⟨-, _, _, _, _, -, rfl, -⟩ := execPoll_next he
          simp [popped, readsOf_rd_other hne]
        · exact hpopped
      exact (ih (kept_cfg.turn hm ▸ hne) h).trans hpopped
    · rw [turnsWhile_of_ne hp] at h
      cases h
      rfl

/-- R124, R127: with turns enough for those listed and one more, phase `POP` is left by a POP, which answers the one
word it read, or by a KILL. -/
theorem turnsWhile_pop_next {n : Nat} {s t : State} (hp : s.ph = .pop) (hn : s.agenda.length < n)
    (h : turnsWhile .pop n s = .next t) :
    t.ph = .halted ∨ ∃ v, t.answer = .value v ∧ popped t = popped s ++ [v] := by
  induction n generalizing s with
  | zero => exact absurd hn (Nat.not_lt_zero _)
  | succ n ih =>
    rw [turnsWhile, if_pos hp] at h
    obtain ⟨m, hm, h⟩ := andThen_eq_next.1 h
    rcases turn_next_sequencer_or_listed hm with ⟨i, rest, hi, he⟩ | ⟨hlen, hpopped, hph | hph⟩
    · rw [hp] at hi
      cases hi
      obtain ⟨-, -, _, v, _, _, _, _, -, rfl, -⟩ := execPop_next he
      rw [turnsWhile_of_ne (by dsimp only; split <;> simp)] at h
      cases h
      exact .inr ⟨v, rfl, by simp [popped]⟩
    · rw [← hpopped]
      exact ih (hph.trans hp) (by omega) h
    · rw [turnsWhile_of_ne (by simp [hph])] at h
      cases h
      exact .inl hph

theorem agenda_length_lt_patience (s : State) : s.agenda.length < patience s := by
  unfold patience; omega

/-- Settles O26: the poll loop pops nothing; the pop that follows it answers the one word it read; and a call that is
ended before that pop answers `waiting`. -/
theorem nextWordReturnsOnlyAWordRead : Obligations.NextWordReturnsOnlyAWordRead := by
  intro s t hne h
  obtain ⟨m, hm, h⟩ := andThen_eq_next.1 (inPhase_eq_next.1 h).2
  rw [← popped_turnsWhile_poll hne hm]
  unfold popTurns at h
  split at h
  · next hp =>
    obtain ⟨u, hu, h⟩ := andThen_eq_next.1 h
    cases h
    rcases turnsWhile_pop_next hp (agenda_length_lt_patience m) hu with hk | hv
    · exact .inl (by simp [popReturn, hk, Phase.terminal])
    · unfold popReturn
      split
      · exact .inl rfl
      · exact .inr hv
  · cases h
    exact .inl rfl

/-! ### The wait without end -/

/-- R123: a NEXT_WORD that is still polling when its turns are used up has not returned. -/
theorem nextWordTurns_of_starved {s t : State} (hleave : leavePhase .poll s = .next t) (hp : t.ph ≠ .pop) :
    nextWordTurns s = .next { t with answer := .waiting } := by
  rw [nextWordTurns, hleave, andThen_next, popTurns, if_neg hp]
  rfl

/-- R184: a COLLECT that still needs a word waits with its NEXT_WORD. -/
theorem collectTurns_of_waiting {s t : State} (h : nextWordTurns s = .next t) (ht : t.answer = .waiting) {k : Nat}
    (hk : 0 < k) : collectTurns k s = .next t := by
  obtain ⟨k, rfl⟩ := Nat.exists_eq_succ_of_ne_zero (Nat.ne_of_gt hk)
  rw [collectTurns, h, andThen_next, afterReturn, ht]

/-- R186: a CYCLE whose COLLECT is still in phase `POLL` goes no further. -/
theorem execCycle_of_polling {s t : State} (hs : s.ph = .poll) (h : collectTurns (s.cfg.n - s.idx) s = .next t)
    (ht : t.ph = .poll) : execCycle s = .next t := by
  have hstay : ∀ p, t.ph ≠ p → leavePhase p t = .next t := fun p hp => turnsWhile_of_ne hp _
  rw [ht] at hstay
  rw [execCycle, inPhase_of_eq hs, h]
  simp only [andThen_next, hstay .pack (by decide), hstay .send (by decide), hstay .adv (by decide)]

/-- Settles O28: the POLL reads 0 and stays, it is the only turn to take, and each of the three waits where it left. -/
theorem emptyQueueIsPolledForEver : Obligations.EmptyQueueIsPolledForEver := by
  intro w s hp hw hf hq ha
  have hpoll := pollReadsOnceAndDecides w s 0 hp hw hf (by rw [hq]; rfl)
  rw [if_pos rfl, ← hp] at hpoll
  have hturn := (turn_poll_of_nil hp ha).trans hpoll
  have hleave := leavePhase_of_fifo hf .poll
  rw [ha, List.length_nil, turnsWhile_of_turn hp hturn, turnsWhile] at hleave
  have hnext := nextWordTurns_of_starved hleave (by simp [hp])
  refine ⟨_, hpoll, (step_eq_turn s).trans hturn, (inPhase_of_eq hp _).trans hnext, fun hi => ?_, rfl⟩
  have hcollect := collectTurns_of_waiting hnext rfl (Nat.sub_pos_of_lt hi)
  exact ⟨(inPhase_of_eq hp _).trans hcollect, execCycle_of_polling hp hcollect hp⟩

end Sys2Proof.Machine
end

section
/-!
PROOFS. The Frame Assembler (43_frame_assembler.md): what PACK_CTR, PACK_IQ and BUILD_FRAME write into FB, the length of
a frame, and that the order in which the parts of a frame are packed is not observable.
-/
namespace Sys2Proof.Machine

/-! ### A run of writes, inside and outside its range -/

section Cells
variable {α : Type} (m : List (Nat × α)) {i : Nat} {vs : List α}

theorem cellAt_putCells_inside (i : Nat) {j : Nat} (hj : j < vs.length) :
    cellAt (putCells m i vs) (i + j) = vs[j]? := by
  rw [cellAt_putCells, if_pos ⟨Nat.le_add_right i j, Nat.add_lt_add_left hj i⟩, Nat.add_sub_cancel_left]

theorem cellAt_putCells_outside {k : Nat} (hk : k < i ∨ i + vs.length ≤ k) :
    cellAt (putCells m i vs) k = cellAt m k := by
  rw [cellAt_putCells, if_neg (by omega)]

end Cells

/-! ### The three operations (R142, R144, R146, R147) -/

theorem execPackCtr_eq {s : State} (hp : s.ph = .pack) (c : Word) :
    execPackCtr c s = .next { s with fb := putCells s.fb 0 (le32 c) } :=
  inPhase_of_eq hp _

theorem execPackIq_eq {s : State} (hp : s.ph = .pack) {i : Nat} (hi : i < s.cfg.n) (w : Word) :
    execPackIq i w s = .next { s with fb := putCells s.fb (4 + 4 * i) (iqBytes w) } :=
  (inPhase_of_eq hp _).trans (if_pos hi)

/-- R147: inside a run the frame that is built has `FRAME_LEN` bytes. -/
theorem length_frameOf_words (s : State) (c : Word) : (frameOf c s.words).length = frameLen s.cfg := by
  rw [length_frameOf, State.words_length, frameLen]

theorem State.frame_length (s : State) : s.frame.length = frameLen s.cfg := by
  rw [State.frame, List.length_map, List.length_range]

/-- R31: an entry of `WBUF` that holds a value is read as that value. -/
theorem getElem?_words_of_held {s : State} {j : Nat} {w : Word} (hj : j < s.cfg.n) (hw : cellAt s.wbuf j = some w) :
    s.words[j]? = some w := by
  simp [State.words, State.wordAt, hj, hw]

/-- Settles O31: FRAME_LEN is the length of the run of writes, which is the frame; every byte after it is kept. -/
theorem buildFrameWritesTheWholeFrame : Obligations.BuildFrameWritesTheWholeFrame := by
  refine ⟨fun s hp => ⟨_, execBuildFrame_eq hp, fun j hj => ?_, fun j hj => ?_, rfl⟩,
    fun s => ⟨s.words_length, fun j hj w => getElem?_words_of_held hj⟩,
    fun c ws => ⟨length_frameOf c ws, rfl⟩⟩
  · simpa using cellAt_putCells_inside s.fb 0 (hj.trans_eq (length_frameOf_words s s.seq).symm)
  · exact cellAt_putCells_outside s.fb (.inr (by rwa [length_frameOf_words, Nat.zero_add]))

/-- Settles O29: the run of writes is the counter's four bytes. -/
theorem packCtrWritesTheCounter : Obligations.PackCtrWritesTheCounter := by
  refine fun c s hp => ⟨⟨_, execPackCtr_eq hp c, ?_, ?_, ?_, ?_, fun j hj => ?_, rfl⟩, fun ws => rfl⟩
  · exact cellAt_putCells_inside s.fb 0 (j := 0) (by simp)
  · exact cellAt_putCells_inside s.fb 0 (j := 1) (by simp)
  · exact cellAt_putCells_inside s.fb 0 (j := 2) (by simp)
  · exact cellAt_putCells_inside s.fb 0 (j := 3) (by simp)
  · exact cellAt_putCells_outside s.fb (.inr (by simpa using hj))

/-- Settles O30: the run of writes is the sample pair's four bytes. -/
theorem packIqWritesTheSamplePair : Obligations.PackIqWritesTheSamplePair := by
  refine fun i w s hp hi => ⟨_, execPackIq_eq hp hi w, ?_, ?_, ?_, ?_, fun j hj => ?_, rfl⟩
  · exact cellAt_putCells_inside s.fb (4 + 4 * i) (j := 0) (by simp)
  · exact cellAt_putCells_inside s.fb (4 + 4 * i) (j := 1) (by simp)
  · exact cellAt_putCells_inside s.fb (4 + 4 * i) (j := 2) (by simp)
  · exact cellAt_putCells_inside s.fb (4 + 4 * i) (j := 3) (by simp)
  · exact cellAt_putCells_outside s.fb (by rw [iqBytes_length]; omega)

/-- Settles O32: the frame sent is read from `FB` over `FRAME_LEN` bytes, and the frame built has a byte for each. -/
theorem frameLengthIsFixedByTheWordCount : Obligations.FrameLengthIsFixedByTheWordCount :=
  ⟨length_frameOf, fun c => (le32 c).append_nil, fun s => ⟨length_frameOf_words s s.seq, s.frame_length, rfl⟩⟩

/-! ### Writes at distinct indices commute -/

section Commute
variable {α : Type}

theorem putCell_comm (m : List (Nat × α)) {i j : Nat} (u v : α) (h : i ≠ j) :
    putCell (putCell m i u) j v = putCell (putCell m j v) i u := by
  induction m with
  | nil => grind [putCell]
  | cons e rest ih =>
    obtain ⟨k, x⟩ := e
    by_cases hk : k < i ∧ k < j
    · -- both writes pass the head
      simp [putCell, hk.1.not_gt, hk.2.not_gt, hk.1.ne', hk.2.ne', ih]
    · -- one of the writes stops at the head, in front of it or over it
      grind [putCell]

theorem putCell_putCells_comm (vs : List α) (m : List (Nat × α)) {i j : Nat} (u : α)
    (h : j < i ∨ i + vs.length ≤ j) : putCells (putCell m j u) i vs = putCell (putCells m i vs) j u := by
  induction vs generalizing m i with
  | nil => rfl
  | cons v vs ih =>
    rw [List.length_cons] at h
    rw [putCells, putCells, putCell_comm m u v (by omega), ih _ (by omega)]

/-- Runs of writes that do not overlap commute. -/
theorem putCells_comm (us vs : List α) (m : List (Nat × α)) {i j : Nat}
    (h : i + us.length ≤ j ∨ j + vs.length ≤ i) :
    putCells (putCells m i us) j vs = putCells (putCells m j vs) i us := by
  induction us generalizing m i with
  | nil => rfl
  | cons u us ih =>
    rw [List.length_cons] at h
    rw [putCells, putCells, ih _ (by omega), putCell_putCells_comm vs m u (by omega)]

end Commute

/-! ### The order of packing (R85, R150) -/

/-- The operations that pack one part of a frame of `n` words. -/
def PacksPart (n : Nat) : Instr → Prop
  | .packCtr _ => True
  | .packIq i _ => i < n
  | _ => False

/-- `FB` after such an operation. -/
def packPart (m : List Host.Cell) : Instr → List Host.Cell
  | .packCtr c => putCells m 0 (le32 c)
  | .packIq i w => putCells m (4 + 4 * i) (iqBytes w)
  | _ => m

theorem exec_of_packsPart {s : State} (hp : s.ph = .pack) {i : Instr} (hi : PacksPart s.cfg.n i) :
    exec i s = .next { s with fb := packPart s.fb i } := by
  cases i with
  | packCtr c => exact execPackCtr_eq hp c
  | packIq i w => exact execPackIq_eq hp hi w
  | _ => exact hi.elim

/-- Packing operations one after the other only add their writes to `FB`. -/
theorem foldl_exec_of_packsPart {order : List Instr} {s : State} (hp : s.ph = .pack)
    (h : ∀ i ∈ order, PacksPart s.cfg.n i) :
    order.foldl (fun r i => andThen r (exec i)) (.next s) = .next { s with fb := order.foldl packPart s.fb } := by
  induction order generalizing s with
  | nil => rfl
  | cons i order ih =>
    obtain ⟨hi, horder⟩ := List.forall_mem_cons.1 h
    rw [List.foldl_cons, andThen_next, exec_of_packsPart hp hi]
    exact ih hp horder

/-- The parts of the frame of a counter and the words `w 0` to `w (n - 1)`, in the order in which they stand. -/
def frameParts (c : Word) (n : Nat) (w : Nat → Word) : List Instr :=
  .packCtr c :: (List.range n).map (fun i => .packIq i (w i))

theorem mem_frameParts {c : Word} {n : Nat} {w : Nat → Word} {x : Instr} :
    x ∈ frameParts c n w ↔ x = .packCtr c ∨ ∃ i < n, x = .packIq i (w i) := by
  simp [frameParts, eq_comm]

theorem packsPart_of_mem_frameParts {c : Word} {n : Nat} {w : Nat → Word} {x : Instr} (h : x ∈ frameParts c n w) :
    PacksPart n x := by
  obtain rfl | ⟨i, hi, rfl⟩ := mem_frameParts.1 h
  · trivial
  · exact hi

/-- The parts of one frame stand in bytes of their own, so any two of them may change places. -/
theorem packPart_comm {c : Word} {n : Nat} {w : Nat → Word} {x y : Instr} (hx : x ∈ frameParts c n w)
    (hy : y ∈ frameParts c n w) (m : List Host.Cell) : packPart (packPart m x) y = packPart (packPart m y) x := by
  obtain rfl | ⟨i, -, rfl⟩ := mem_frameParts.1 hx <;> obtain rfl | ⟨j, -, rfl⟩ := mem_frameParts.1 hy
  · rfl
  · exact putCells_comm _ _ m (.inl (by simp))
  · exact putCells_comm _ _ m (.inr (by simp))
  · obtain rfl | hij := eq_or_ne i j
    · rfl
    · exact putCells_comm _ _ m (by simp only [iqBytes_length]; omega)

/-- R146: packed in the order in which they stand, the parts make the frame. -/
theorem foldl_packPart_frameParts (c : Word) (n : Nat) (w : Nat → Word) (m : List Host.Cell) :
    (frameParts c n w).foldl packPart m = putCells m 0 (frameOf c ((List.range n).map w)) := by
  induction n with
  | zero => simp [frameParts, packPart, frameOf]
  | succ n ih =>
    have hparts : frameParts c (n + 1) w = frameParts c n w ++ [.packIq n (w n)] := by
      simp [frameParts, List.range_succ]
    have hframe : frameOf c ((List.range (n + 1)).map w) = frameOf c ((List.range n).map w) ++ iqBytes (w n) := by
      simp [frameOf, List.range_succ]
    rw [hparts, hframe, List.foldl_append, ih, putCells_append, length_frameOf]
    simp [packPart]

/-- Settles O36: each operation only adds its write to `FB`, and the writes commute, so the parts may be put in the
order in which they stand. The writes commute on any list of cells: the canonical form of `FB` is not needed. -/
theorem packingOrderIsNotObservable : Obligations.PackingOrderIsNotObservable := by
  intro s order hp hheld _ hperm
  have hparts : order.Perm (frameParts s.seq s.cfg.n s.wordAt) := hperm
  have hpacks : ∀ i ∈ order, PacksPart s.cfg.n i := fun i hi => packsPart_of_mem_frameParts (hparts.mem_iff.1 hi)
  have hfb : order.foldl packPart s.fb = putCells s.fb 0 (frameOf s.seq s.words) :=
    (hparts.foldl_eq' (fun x hx y hy m => packPart_comm (hparts.mem_iff.1 hx) (hparts.mem_iff.1 hy) m) s.fb).trans
      (foldl_packPart_frameParts s.seq s.cfg.n s.wordAt s.fb)
  rw [foldl_exec_of_packsPart hp hpacks, andThen_next, hfb]
  refine Eq.trans ?_ (execBuildFrame_eq hp).symm
  simp [hheld, State.goto]

end Sys2Proof.Machine
end

section
/-!
PROOFS. Frame output (44_frame_output.md): TX_OPEN by the platform's answer, and SEND by the sink's, which is reported
and has no other effect (R162, R167).
-/
namespace Sys2Proof.Machine

/-! ### TX_OPEN (R160, R161) -/

/-- With the window open and no sink, TX_OPEN asks the platform. -/
theorem execTxOpen_of_window {s : State} {w : Window} (hp : s.ph = .init) (hw : s.win = some w) (ht : s.txh = none)
    (d : Dest) : execTxOpen d s = .next (openSink d s).2 := by
  rw [execTxOpen, inPhase_of_eq hp, hw, ht]

theorem openSink_of_ok {s : State} (h : s.txAnswer = .ok) (d : Dest) :
    openSink d s = (none, { s with txh := some d, answer := .opened, trace := s.trace ++ [.openTx d none] }) := by
  rw [openSink, h]; rfl

theorem openSink_of_cause {s : State} {c : Cause} (h : txCause s.txAnswer = some c) (d : Dest) :
    openSink d s = (some c, { s with answer := .error c, trace := s.trace ++ [.openTx d (some c)] }) := by
  rw [openSink, h]; rfl

/-- Settles O37: TX_OPEN is the platform's open, and that is told apart by the platform's answer. -/
theorem txOpenOpensTheSink : Obligations.TxOpenOpensTheSink := by
  intro d w s hp hw ht
  have hopen := execTxOpen_of_window hp hw ht d
  exact ⟨fun hok => hopen.trans (by rw [openSink_of_ok hok]), fun c hc => hopen.trans (by rw [openSink_of_cause hc])⟩

/-! ### SEND (R162, R167) -/

/-- Settles O38: an answer that is listed and legal, for a frame that fits, is the answer given. -/
theorem sendHandsOverTheFrameOnce : Obligations.SendHandsOverTheFrameOnce := by
  intro d s a rest hp hd hs hlegal hfits
  obtain ⟨a', rest', n, hsend, -, -, hlisted, -⟩ := execSend_spec s d hp hd
  obtain ⟨rfl, hanswer⟩ := hlisted a rest hs
  obtain rfl := hanswer hlegal hfits
  exact ⟨_, hsend, rfl⟩

/-- Settles O39: whatever is listed, the reply the sink makes of it is legal, and a failure where the frame is too
large. -/
theorem sendAnswerIsAlwaysLegal : Obligations.SendAnswerIsAlwaysLegal := by
  intro d s hp hd
  obtain ⟨a, rest, n, hsend, hlegal, hlarge, -⟩ := execSend_spec s d hp hd
  exact ⟨_, a, hsend, hlegal, hlarge, rfl⟩

/-- R167: the trace aside, the state after a SEND is made of the state before it, without the answer. -/
theorem execSend_untraced {s t : State} {a : SinkAnswer} {rest : List SinkAnswer} (hs : s.sink = a :: rest)
    (h : execSend s = .next t) :
    { t with trace := [] } = { s with
      ph := .adv, sink := rest, draws := s.draws + 1 + (if s.frameHeld then 0 else 1)
      unwr := s.unwr || !s.frameHeld, trace := [] } := by
  obtain ⟨hp, d, -, -, -, hd, -⟩ := execSend_next h
  obtain ⟨_, _, _, hsend, -, -, hlisted, rfl⟩ := execSend_spec s d hp hd
  obtain ⟨rfl, -⟩ := hlisted a rest hs
  cases hsend.symm.trans h
  rfl

/-- Settles O40: the trace aside, both runs end in the one state that the rest of the state before them gives. -/
theorem sendAnswerReachesOnlyTheReport : Obligations.SendAnswerReachesOnlyTheReport := by
  intro s t u a b rest ht hu
  exact (execSend_untraced rfl ht).trans (execSend_untraced rfl hu).symm

/-! ### The step after SEND (R163, R188) -/

/-- R196: with no other turn listed, the step is the operation of the phase. -/
theorem step_of_nil {s : State} {i : Instr} (ha : s.agenda = []) (hi : phaseInstr s.ph = some i) :
    step s = exec i s := by
  rw [step_eq_turn, turn_nil ha, seqTurn_eq, hi]

/-- R188: with no other turn listed, the step in phase `ADV` advances the counter and returns to `POLL`. -/
theorem step_adv_of_nil {s : State} (hp : s.ph = .adv) (ha : s.agenda = []) :
    step s = .next { s with seq := s.seq + 1, ph := .poll } := by
  rw [step_of_nil ha (i := .adv) (by rw [hp]; rfl)]
  exact inPhase_of_eq hp _

/-- Settles O41: a SEND always completes in phase `ADV` with one frame more in the trace, and ADV counts it. -/
theorem counterAdvancesAfterEverySend : Obligations.CounterAdvancesAfterEverySend := by
  intro d s hp hd ha
  obtain ⟨a, rest, n, hsend, -⟩ := execSend_spec s d hp hd
  have hstep := (step_of_nil (i := .send) ha (by rw [hp]; rfl)).trans hsend
  have hframes : framesOf (s.trace ++ if a = .ok then [.send d s.frame a] else [.send d s.frame a, .reportTransient]) =
      sent s ++ [s.frame] := by
    rw [framesOf_append, (traceOf_send 0 d s.frame a).2.1]
    rfl
  exact ⟨_, _, hstep, step_adv_of_nil rfl ha, rfl, rfl, hframes, rfl, rfl, rfl⟩

end Sys2Proof.Machine
end

section
/-!
PROOFS. The operations of the Acquisition Loop that are one step (45_acquisition_loop.md R180, R188, R190, R192, R194):
one equation for each way FAIL, KILL, PUSH, INIT and ADV go, and that only ADV writes the counter after INIT.
-/
namespace Sys2Proof.Machine

/-! ### FAIL, KILL and PUSH -/

/-- R190, R212: the report, `FAILED`, and the exit. -/
theorem takeFatal_eq (c : Cause) (n : Nat) (s : State) :
    takeFatal c n s = { s with ph := .failed, trace := s.trace ++ [failReport c, .exit n] } := by
  simp [takeFatal, State.emit, State.goto]

/-- R203: the configuration error is the one whose report is the usage message. -/
theorem failReport_eq (c : Cause) : failReport c = if c = .cfgInvalid then .usage else .failureReport c := by
  cases c <;> rfl

/-- R190, R200: the operands FAIL checks are those that are well-formed. -/
theorem wf_fail (cfg : Config) (c : Cause) (status : Nat) :
    (Instr.fail c status).wf cfg = (fatalCause c && failStatusOk c status) := by
  cases c <;> rfl

/-- R190: a run that fails never ends with status 0, and a configuration error ends it with 1. -/
theorem status_of_wf_fail {cfg : Config} {c : Cause} {status : Nat} (h : (Instr.fail c status).wf cfg = true) :
    status ≠ 0 ∧ (c = .cfgInvalid → status = 1) := by
  cases c <;> simp [Instr.wf] at h <;> simp [h]

theorem execFail_eq {s : State} (hp : s.ph = .init) (c : Cause) (status : Nat) :
    execFail c status s =
      if fatalCause c && failStatusOk c status then .next (takeFatal c status s) else .refused .badOperand :=
  inPhase_of_eq hp _

/-- Settles O44: FAIL takes the entry of a fatal error exactly where its operands are well-formed. -/
theorem failReportsAndExits : Obligations.FailReportsAndExits := by
  intro c status s hp
  rw [exec, execFail_eq hp, ← wf_fail s.cfg]
  refine ⟨fun hwf => ⟨?_, status_of_wf_fail hwf⟩, fun hwf => ?_⟩
  · rw [if_pos hwf, takeFatal_eq, failReport_eq]
  · rw [hwf]; rfl

theorem Phase.terminal_iff {p : Phase} : p.terminal = true ↔ p = .failed ∨ p = .halted := by
  cases p <;> simp [Phase.terminal]

theorem execKill_eq (s : State) :
    execKill s = if s.ph.terminal then .refused (.notEnabled s.ph)
      else .next { s with ph := .halted, trace := s.trace ++ [.kill] } := rfl

/-- Settles O45: KILL asks only whether the phase is terminal. -/
theorem killHalts : Obligations.KillHalts := by
  intro s
  rw [exec, execKill_eq, ← Phase.terminal_iff]
  refine ⟨fun hf hh => if_neg ?_, fun ht => if_pos ht⟩
  rw [Phase.terminal_iff]
  exact not_or.2 ⟨hf, hh⟩

/-- R194: with room the word goes behind those queued. -/
theorem execPush_of_room {s : State} (h : s.q.length < s.cfg.depth) (w : Word) :
    execPush w s = .next { s with q := s.q ++ [w], trace := s.trace ++ [.push w] } :=
  if_pos h

/-- R27: an overflow leaves some queue that fits. -/
theorem execPush_of_full {s : State} (h : s.cfg.depth ≤ s.q.length) (w : Word) :
    execPush w s = .next { s with
      ovf := true, q := (Config.freeQueue s.draws).take s.cfg.depth, draws := s.draws + 1
      trace := s.trace ++ [.push w] } :=
  if_neg h.not_gt

/-- Settles O46: of the queue after an overflow it is known that it is cut to `DEPTH` words. -/
theorem pushAppendsOrOverflows : Obligations.PushAppendsOrOverflows := by
  intro w s
  refine ⟨fun hroom => execPush_of_room hroom w, fun hfull => ⟨_, execPush_of_full hfull w, ?_, rfl⟩⟩
  exact List.length_take_le _ _

/-! ### INIT -/

theorem execInit_of_invalid {s : State} (hp : s.ph = .init) (hd : destOf s.cfg = none) :
    execInit s = .next (takeFatal .cfgInvalid 1 s) := by
  rw [execInit, inPhase_of_eq hp, hd]

theorem execInit_of_valid {s : State} {d : Dest} (hp : s.ph = .init) (hd : destOf s.cfg = some d) :
    execInit s = .next (initOpen d s) := by
  rw [execInit, inPhase_of_eq hp, hd]

/-- R210: where the window does not open, the sink is not tried. -/
theorem initOpen_of_cause {s t : State} {c : Cause} (h : openWindow s.cfg.base s.cfg.span s = (some c, t)) (d : Dest) :
    initOpen d s = takeFatal c t.cfg.exitFail t := by
  rw [initOpen, h]

theorem initOpen_of_ok {s t : State} (h : openWindow s.cfg.base s.cfg.span s = (none, t)) (d : Dest) :
    initOpen d s = initSink d t := by
  rw [initOpen, h]

theorem initSink_of_cause {s t : State} {c : Cause} {d : Dest} (h : openSink d s = (some c, t)) :
    initSink d s = takeFatal c t.cfg.exitFail t := by
  rw [initSink, h]

theorem initSink_of_ok {s t : State} {d : Dest} (h : openSink d s = (none, t)) : initSink d s = initDone t := by
  rw [initSink, h]

/-- R101: the platform's refusal of a window is no configuration error. -/
theorem failReport_of_riCause {a : RiAnswer} {c : Cause} (h : riCause a = some c) :
    failReport c = .failureReport c := by
  cases a <;> cases h <;> rfl

/-- R161: the platform's refusal of a sink is no configuration error. -/
theorem failReport_of_txCause {a : TxAnswer} {c : Cause} (h : txCause a = some c) :
    failReport c = .failureReport c := by
  cases a <;> cases h <;> rfl

/-- Settles O42: the two opens are told apart by the check and by the platform's answers, in the order R210 gives. -/
theorem initOpensThenStreamsOrFails : Obligations.InitOpensThenStreamsOrFails := by
  intro s hp
  refine ⟨fun hd => ?_, fun d hd => ?_⟩
  · rw [exec, execInit_of_invalid hp hd, takeFatal_eq]; rfl
  rw [exec, execInit_of_valid hp hd, ← offsetsInside_iff]
  refine ⟨fun hout => ?_, fun hin => ⟨fun c hc => ?_, fun hri => ?_⟩⟩
  · rw [initOpen_of_cause (openWindow_of_outside hout _), takeFatal_eq]
    simp [openRiFails, State.give, State.emit, failReport]
  · rw [initOpen_of_cause (openWindow_of_cause hin hc _), takeFatal_eq, failReport_of_riCause hc]
    simp [openRiFails, State.give, State.emit]
  · rw [initOpen_of_ok (openWindow_of_ok hin hri _)]
    refine ⟨fun c hc => ?_, fun htx => ?_⟩
    · rw [initSink_of_cause (openSink_of_cause (by exact hc) d), takeFatal_eq, failReport_of_txCause hc]
      simp [State.give, State.emit]
    · rw [initSink_of_ok (openSink_of_ok (by exact htx) d)]
      simp [initDone, State.goto, State.give, State.emit]

/-! ### ADV, and the writers of the counter -/

/-- R188: after INIT, no operation that is one step but ADV writes `SEQ`. -/
theorem exec_seq_of_not_pseudo {i : Instr} {s t : State} (hi : isPseudo i = false) (h : exec i s = .next t)
    (hs : s.ph ≠ .init) (ha : i ≠ .adv) : t.seq = s.seq := by
  cases i with
  | nextWord | collect | cycle => cases hi
  | rdUndef | wr => cases h
  | adv => exact absurd rfl ha
  | init => exact absurd (execInit_next h).1 hs
  | riOpen => obtain ⟨-, -, _, _, _, rfl, -⟩ := execRiOpen_next h; rfl
  | rdOcc => obtain ⟨-, _, _, _, _, -, rfl, -⟩ := execRdOcc_next h; rfl
  | rdData => obtain ⟨-, _, _, _, _, _, _, -, rfl, -⟩ := execRdData_next h; rfl
  | rdOob => obtain ⟨_, -, -, rfl⟩ := execRdOob_next h; rfl
  | poll => obtain ⟨-, _, _, _, _, -, rfl, -⟩ := execPoll_next h; rfl
  | pop => obtain ⟨-, -, _, _, _, _, _, _, -, rfl, -⟩ := execPop_next h; rfl
  | packCtr => obtain ⟨-, rfl⟩ := execPackCtr_next h; rfl
  | packIq => obtain ⟨-, -, rfl⟩ := execPackIq_next h; rfl
  | buildFrame => obtain ⟨-, rfl⟩ := execBuildFrame_next h; rfl
  | txOpen => obtain ⟨-, -, -, _, _, _, rfl, -⟩ := execTxOpen_next h; rfl
  | send => obtain ⟨-, _, _, _, _, -, rfl⟩ := execSend_next h; rfl
  | fail => obtain ⟨-, -, -, rfl⟩ := execFail_next h; rfl
  | kill => obtain ⟨-, rfl⟩ := execKill_next h; rfl
  | push => obtain ⟨_, _, _, rfl, -⟩ := execPush_next h; rfl

/-- The operation a turn runs is one step. -/
theorem turn_next_not_pseudo {s t : State} (h : turn s = .next t) :
    ∃ i rest, isPseudo i = false ∧ exec i { s with agenda := rest } = .next t := by
  obtain ⟨i, rest, he, ⟨hi, -⟩ | ⟨_, rfl, -⟩ | ⟨rfl, -⟩ | ⟨_, _, rfl, -⟩⟩ := turn_next h
  · exact ⟨i, rest, phaseInstr_not_pseudo hi, he⟩
  · exact ⟨_, rest, rfl, he⟩
  · exact ⟨_, rest, rfl, he⟩
  · exact ⟨_, rest, rfl, he⟩

/-- After INIT a turn keeps the counter, or it is the ADV of phase `ADV`, which leaves that phase. -/
theorem turn_seq {s t : State} (hs : s.ph ≠ .init) (h : turn s = .next t) :
    t.seq = s.seq ∨ (s.ph = .adv ∧ t.ph = .poll ∧ t.seq = s.seq + 1) := by
  obtain ⟨i, rest, hi, he⟩ := turn_next_not_pseudo h
  by_cases ha : i = .adv
  · subst ha
    obtain ⟨hp, rfl⟩ := execAdv_next he
    exact .inr ⟨hp, rfl, rfl⟩
  · exact .inl (exec_seq_of_not_pseudo (s := { s with agenda := rest }) hi he hs ha)

/-- The turns taken while the sequencer is in a phase other than `INIT` and `ADV` keep the counter. -/
theorem turnsWhile_seq {p : Phase} (hinit : p ≠ .init) (hadv : p ≠ .adv) {n : Nat} {s t : State}
    (h : turnsWhile p n s = .next t) : t.seq = s.seq := by
  induction n generalizing s with
  | zero => cases h; rfl
  | succ n ih =>
    unfold turnsWhile at h
    split at h
    · next hp =>
      obtain ⟨m, hm, h⟩ := andThen_eq_next.1 h
      rcases turn_seq (hp ▸ hinit) hm with hseq | ⟨hp', -⟩
      · exact (ih h).trans hseq
      · exact absurd (hp.symm.trans hp') hadv
    · cases h; rfl

/-- The turns taken while the sequencer is in phase `ADV` count one cycle at most. -/
theorem turnsWhile_adv_seq {n : Nat} {s t : State} (h : turnsWhile .adv n s = .next t) :
    t.seq = s.seq ∨ t.seq = s.seq + 1 := by
  induction n generalizing s with
  | zero => cases h; exact .inl rfl
  | succ n ih =>
    unfold turnsWhile at h
    split at h
    · next hp =>
      obtain ⟨m, hm, h⟩ := andThen_eq_next.1 h
      rcases turn_seq (by simp [hp]) hm with hseq | ⟨-, hm, hseq⟩
      · exact hseq ▸ ih h
      · rw [turnsWhile_of_ne (by simp [hm])] at h
        cases h
        exact .inr hseq
    · cases h; exact .inl rfl

theorem nextWordTurns_seq {s t : State} (h : nextWordTurns s = .next t) : t.seq = s.seq := by
  obtain ⟨m, hm, h⟩ := nextWordTurns_next h
  have hpoll : m.seq = s.seq := turnsWhile_seq (by simp) (by simp) hm
  rcases h with ⟨-, u, hu, rfl | rfl⟩ | ⟨-, rfl⟩
  · exact (turnsWhile_seq (by simp) (by simp) hu).trans hpoll
  · exact (turnsWhile_seq (by simp) (by simp) hu).trans hpoll
  · exact hpoll

theorem collectTurns_seq {k : Nat} {s t : State} (h : collectTurns k s = .next t) : t.seq = s.seq := by
  induction k generalizing s with
  | zero => cases h; rfl
  | succ k ih =>
    obtain ⟨m, hm, h⟩ := andThen_eq_next.1 h
    rcases afterReturn_next h with ⟨-, rfl⟩ | ⟨-, h⟩
    · exact nextWordTurns_seq hm
    · exact (ih h).trans (nextWordTurns_seq hm)

theorem execCycle_seq {s t : State} (h : execCycle s = .next t) : t.seq = s.seq ∨ t.seq = s.seq + 1 := by
  obtain ⟨s1, hcollect, h⟩ := andThen_eq_next.1 (inPhase_eq_next.1 h).2
  obtain ⟨s2, hpack, h⟩ := andThen_eq_next.1 h
  obtain ⟨s3, hsend, h⟩ := andThen_eq_next.1 h
  have hseq : s3.seq = s.seq := calc
    s3.seq = s2.seq := turnsWhile_seq (by simp) (by simp) hsend
    _ = s1.seq := turnsWhile_seq (by simp) (by simp) hpack
    _ = s.seq := collectTurns_seq hcollect
  exact hseq ▸ turnsWhile_adv_seq h

theorem execAdv_eq {s : State} (hp : s.ph = .adv) : execAdv s = .next { s with seq := s.seq + 1, ph := .poll } :=
  inPhase_of_eq hp _

/-- Settles O43: an operation that is one step is ADV or keeps the counter; NEXT_WORD and COLLECT take no turn in phase
`ADV`, and CYCLE takes them last. -/
theorem advIncrementsModulo : Obligations.AdvIncrementsModulo := by
  refine ⟨fun s hp => ⟨execAdv_eq hp, BitVec.toNat_add s.seq 1⟩,
    fun i s t hs h => ⟨fun hadv hcycle => ?_, fun hcycle => ?_⟩⟩
  · cases hi : isPseudo i with
    | false => exact exec_seq_of_not_pseudo hi h hs hadv
    | true =>
      cases i with
      | nextWord => exact nextWordTurns_seq (inPhase_eq_next.1 h).2
      | collect => exact collectTurns_seq (inPhase_eq_next.1 h).2
      | cycle => exact absurd rfl hcycle
      | _ => cases hi
  · subst hcycle
    exact execCycle_seq h

end Sys2Proof.Machine
end

section
/-!
PROOFS. The transition table (45_acquisition_loop.md R181, R182): the row each turn takes, that the terminal phases have
no step, and that STREAMING neither ends of itself nor fails.
-/
namespace Sys2Proof.Machine

theorem initSucceeds_iff {s : State} : initSucceeds s = true ↔ InitOk s := by
  simp [initSucceeds, InitOk, Option.isSome_iff_ne_none, and_assoc]

/-- R181: the operation of a phase moves `PH` along that phase's row. -/
theorem sequencerRow_of_exec {i : Instr} {s t : State} (hi : phaseInstr s.ph = some i) (h : exec i s = .next t) :
    sequencerRow s t := by
  unfold sequencerRow
  cases hp : s.ph <;> rw [hp] at hi <;> cases hi
  case init =>
    obtain ⟨-, ⟨hok, _, -, rfl⟩ | ⟨hfail, _, _, _, rfl, -⟩⟩ := execInit_next h
    · simp [initSucceeds_iff.2 hok]
    · simp [initSucceeds_iff, hfail]
  case poll =>
    obtain ⟨-, _, v, _, _, -, rfl, hv⟩ := execPoll_next h
    exact ⟨rfl, fun hf => (hv hf).1⟩
  case pop =>
    obtain ⟨-, hi, _, _, _, _, _, _, -, rfl, -⟩ := execPop_next h
    exact ⟨hi, rfl⟩
  case pack => obtain ⟨-, rfl⟩ := execBuildFrame_next h; rfl
  case send => obtain ⟨-, _, _, _, _, -, rfl⟩ := execSend_next h; rfl
  case adv => obtain ⟨-, rfl⟩ := execAdv_next h; rfl

/-- Settles O8: the sequencer's turn takes the row of its phase, and no other turn but a KILL writes `PH`. -/
theorem phaseMovesAlongTheTable : Obligations.PhaseMovesAlongTheTable := by
  intro s t h
  rw [step_eq_turn] at h
  unfold tableRow
  obtain ⟨i, rest, he, ⟨hi, ⟨ha, -⟩ | ha⟩ | ⟨w, rfl, ha⟩ | ⟨rfl, ha⟩ | ⟨_, _, rfl, ha⟩⟩ := turn_next h
  · rw [ha]; exact sequencerRow_of_exec (s := { s with agenda := rest }) hi he
  · rw [ha]; exact sequencerRow_of_exec (s := { s with agenda := rest }) hi he
  · rw [ha]; obtain ⟨_, _, _, rfl, -⟩ := execPush_next he; rfl
  · rw [ha]; obtain ⟨ht, rfl⟩ := execKill_next he; exact ⟨ht, rfl⟩
  · rw [ha]; obtain ⟨_, -, -, rfl⟩ := execRdOob_next he; rfl

/-- Settles O11: no operation belongs to a terminal phase. -/
theorem terminalPhasesHaveNoStep : Obligations.TerminalPhasesHaveNoStep := by
  intro s r ht ha
  have hnone : phaseInstr s.ph = none := by
    rcases Phase.terminal_iff.1 ht with hp | hp <;> rw [hp] <;> rfl
  obtain ⟨rest, ha⟩ : ∃ rest, s.agenda = [] ∧ rest = [] ∨ s.agenda = .seq :: rest :=
    ha.elim (fun ha => ⟨[], .inl ⟨ha, rfl⟩⟩) (fun ha => ⟨r, .inr ha⟩)
  rw [step_sequencer ha, seqTurn_eq]
  simp only [hnone]

/-! ### STREAMING -/

/-- R182: every row that starts in STREAMING ends there, but for the host's. -/
theorem streaming_of_sequencerRow {s t : State} (hs : s.ph.streaming = true) (h : sequencerRow s t) :
    t.ph.streaming = true := by
  unfold sequencerRow at h
  cases hp : s.ph <;> rw [hp] at hs h
  case init | failed | halted => cases hs
  case poll => rw [h.1]; split <;> rfl
  case pop => rw [h.2]; split <;> rfl
  case pack | send | adv => rw [h]; rfl

theorem streaming_of_tableRow {s t : State} (hs : s.ph.streaming = true) (h : tableRow s t) :
    t.ph.streaming = true ∨ (t.ph = .halted ∧ s.agenda.head? = some .kill) := by
  unfold tableRow at h
  split at h
  · exact .inl (streaming_of_sequencerRow hs h)
  · exact .inl (streaming_of_sequencerRow hs h)
  · next ha => exact .inr ⟨h.2, ha⟩
  · exact .inl (by rwa [h])
  · exact .inl (by rwa [h])

/-- R190, R182: past INIT no turn exits. -/
theorem noExit_keptByTurns (n : Nat) : KeptByTurns (fun s => s.ph ≠ .init ∧ Event.exit n ∉ s.trace) where
  agenda _ h := h
  init h e := absurd (execInit_next e).1 h.1
  poll h e := by
    refine ⟨(exec_handles_of_not_pseudo (i := .poll) rfl e h.1).1, ?_⟩
    obtain ⟨-, _, _, _, _, -, rfl, -⟩ := execPoll_next e
    simpa using h.2
  pop h e := by
    refine ⟨(exec_handles_of_not_pseudo (i := .pop) rfl e h.1).1, ?_⟩
    obtain ⟨-, -, _, _, _, _, _, _, -, rfl, -⟩ := execPop_next e
    simpa using h.2
  buildFrame h e := by obtain ⟨-, rfl⟩ := execBuildFrame_next e; exact ⟨by simp, h.2⟩
  send h e := by
    obtain ⟨-, _, _, _, _, -, rfl⟩ := execSend_next e
    refine ⟨by simp, ?_⟩
    dsimp only
    split <;> simpa using h.2
  adv h e := by obtain ⟨-, rfl⟩ := execAdv_next e; exact ⟨by simp, h.2⟩
  push h e := by obtain ⟨_, _, _, rfl, -⟩ := execPush_next e; simpa using h
  kill h e := by obtain ⟨-, rfl⟩ := execKill_next e; simpa using h.2
  rdOob h e := by obtain ⟨_, -, -, rfl⟩ := execRdOob_next e; exact h

/-- R33: in STREAMING the handles are open and the index is inside `WBUF`, which is all that the operations of its phases
ask for. -/
theorem LoopInv.seqTurn_completes {s : State} (h : LoopInv s) (hs : s.ph.streaming = true) :
    ∃ t, seqTurn s = .next t := by
  obtain ⟨hwin, htxh, hidx⟩ := h.streaming hs
  obtain ⟨w, hw⟩ := Option.ne_none_iff_exists'.1 hwin
  obtain ⟨d, hd⟩ := Option.ne_none_iff_exists'.1 htxh
  unfold seqTurn
  cases hp : s.ph
  case init | failed | halted => rw [hp] at hs; cases hs
  case poll => exact ⟨_, execPoll_eq hw hp⟩
  case pop => exact ⟨_, (execPop_eq hw hp).trans (if_pos hidx)⟩
  case pack => exact ⟨_, execBuildFrame_eq hp⟩
  case send =>
    obtain ⟨_, _, _, hsend, -⟩ := execSend_spec s d hp hd
    exact ⟨_, hsend⟩
  case adv => exact ⟨_, execAdv_eq hp⟩

/-- R194: a push is enabled at any time. -/
theorem execPush_completes (w : Word) (s : State) : ∃ t, execPush w s = .next t := by
  rcases Nat.lt_or_ge s.q.length s.cfg.depth with hroom | hfull
  · exact ⟨_, execPush_of_room hroom w⟩
  · exact ⟨_, execPush_of_full hfull w⟩

theorem Phase.terminal_of_streaming {p : Phase} (h : p.streaming = true) : p.terminal = false := by
  cases p <;> cases h <;> rfl

/-- R182: in STREAMING every turn but a call by another caller completes. -/
theorem LoopInv.turn_completes {s : State} (h : LoopInv s) (hs : s.ph.streaming = true)
    (ha : ∀ bytes, s.agenda.head? ≠ some (.access bytes)) : ∃ t, turn s = .next t := by
  unfold turn
  split
  · exact h.seqTurn_completes hs
  · next rest _ => exact (keptByTurns.agenda rest h).seqTurn_completes hs
  · exact execPush_completes _ _
  · exact ⟨_, (execKill_eq _).trans (if_neg (by simp [Phase.terminal_of_streaming hs]))⟩
  · next bytes _ heq => exact absurd (congrArg List.head? heq) (ha bytes)

/-- Settles O9: the rows of STREAMING lead back to it or to `HALTED`, no turn past INIT exits, and under the invariant
every turn completes. -/
theorem streamingHasNoProgrammedExit : Obligations.StreamingHasNoProgrammedExit := by
  refine ⟨fun s t hs h => ⟨streaming_of_tableRow hs (phaseMovesAlongTheTable s t h), fun n hn => ?_⟩,
    fun s hl hs ha => step_eq_turn s ▸ hl.turn_completes hs ha⟩
  by_contra hold
  have hinit : s.ph ≠ .init := by rintro hp; rw [hp] at hs; cases hs
  exact ((noExit_keptByTurns n).step ⟨hinit, hold⟩ h).2 hn

end Sys2Proof.Machine
end

section
/-!
PROOFS. COLLECT and CYCLE from a queue that holds the words of a frame, with no other agent moving
(45_acquisition_loop.md R184, R186): NEXT_WORD word by word, then the steps of the phases `PACK`, `SEND` and `ADV`.
-/
namespace Sys2Proof.Machine

/-! ### COLLECT -/

/-- The reads that take the first `k` words of a queue: before each word one of OCC, which reads how many are left. -/
def collectEvents (w : Window) (c : Config) (q : List Word) (k : Nat) : List Event :=
  (List.range k).flatMap (fun j =>
    [rdEvent w c.occOff (BitVec.ofNat 32 (q.length - j)), rdEvent w c.dataOff (q.getD j 0)])

@[simp] theorem collectEvents_zero (w : Window) (c : Config) (q : List Word) : collectEvents w c q 0 = [] := rfl

@[simp] theorem collectEvents_cons (w : Window) (c : Config) (x : Word) (q : List Word) (k : Nat) :
    collectEvents w c (x :: q) (k + 1) =
      [rdEvent w c.occOff (BitVec.ofNat 32 (x :: q).length), rdEvent w c.dataOff x] ++ collectEvents w c q k := by
  simp [collectEvents, List.range_succ_eq_map, List.flatMap_map]

/-- The state that taking the first `k` words of the queue leaves, where they complete a frame. -/
def afterCollect (w : Window) (s : State) (k : Nat) (occ : Word) (a : Answer) : State :=
  { s with
    ph := .pack
    idx := 0
    q := s.q.drop k
    wbuf := putCells s.wbuf s.idx (s.q.take k)
    occLast := occ
    occHeld := true
    answer := a
    trace := s.trace ++ collectEvents w s.cfg s.q k }

/-- R124: with a word queued and no other agent to move, what follows the poll loop is one POP of the head. -/
theorem popTurns_of_queue {w : Window} {s : State} {x : Word} {rest : List Word} (hp : s.ph = .pop)
    (hw : s.win = some w) (hf : s.source = .fifo) (ha : s.agenda = []) (hi : s.idx < s.cfg.n) (hq : s.q = x :: rest) :
    popTurns s = .next { s with
      q := rest
      wbuf := putCell s.wbuf s.idx x
      idx := if s.idx = s.cfg.n - 1 then 0 else s.idx + 1
      ph := if s.idx = s.cfg.n - 1 then .pack else .poll
      answer := .value x
      trace := s.trace ++ [rdEvent w s.cfg.dataOff x] } := by
  rw [popTurns_eq hp hw ha hi, readData_of_fifo w hf hq, popDone_eq]
  rfl

/-- The state that taking the head of the queue leaves, which is `x`, with `rest` behind it. -/
def afterWord (w : Window) (s : State) (x : Word) (rest : List Word) : State :=
  { s with
    q := rest
    wbuf := putCell s.wbuf s.idx x
    idx := if s.idx = s.cfg.n - 1 then 0 else s.idx + 1
    ph := if s.idx = s.cfg.n - 1 then .pack else .poll
    occLast := BitVec.ofNat 32 (x :: rest).length
    occHeld := true
    answer := .value x
    trace := s.trace ++
      [rdEvent w s.cfg.occOff (BitVec.ofNat 32 (x :: rest).length), rdEvent w s.cfg.dataOff x] }

/-- R127: from a FIFO that holds words NEXT_WORD is one POLL and one POP. -/
theorem nextWordTurns_of_queue {w : Window} {s : State} {x : Word} {rest : List Word} (hp : s.ph = .poll)
    (hw : s.win = some w) (hf : s.source = .fifo) (ha : s.agenda = []) (hi : s.idx < s.cfg.n) (hq : s.q = x :: rest)
    (hl : s.q.length < 2 ^ 32) : nextWordTurns s = .next (afterWord w s x rest) := by
  have hpoll := pollReadsOnceAndDecides w s _ hp hw hf rfl
  rw [if_neg (ofNat_length_ne_zero (by simp [hq]) hl)] at hpoll
  have hleave := leavePhase_of_step ha ((seqTurn_of_poll hp).trans hpoll) (by simp [hp])
  rw [hp] at hleave
  rw [nextWordTurns, hleave, andThen_next]
  refine Eq.trans (popTurns_of_queue rfl hw hf ha hi hq) ?_
  simp [afterWord, hq]

/-- R184: once the first NEXT_WORD has returned, the others follow. -/
theorem collectTurns_of_returned {s t : State} {v : Word} (h : nextWordTurns s = .next t) (ht : t.answer = .value v)
    (k : Nat) : collectTurns (k + 1) s = collectTurns k t := by
  rw [collectTurns, h, andThen_next, afterReturn, ht]

/-- R184: where the queue holds the words that the frame lacks, each NEXT_WORD takes one, and the last one goes on to
`PACK`. -/
theorem collectTurns_of_queue {w : Window} {k : Nat} {s : State} (hp : s.ph = .poll) (hw : s.win = some w)
    (hf : s.source = .fifo) (ha : s.agenda = []) (hn : s.idx + (k + 1) = s.cfg.n) (hk : k + 1 ≤ s.q.length)
    (hl : s.q.length < 2 ^ 32) :
    ∃ occ a, collectTurns (k + 1) s = .next (afterCollect w s (k + 1) occ a) := by
  induction k generalizing s with
  | zero =>
    obtain ⟨x, rest, hq⟩ := List.exists_cons_of_length_pos hk
    have hnext := nextWordTurns_of_queue hp hw hf ha (by omega) hq hl
    have hlast : s.idx = s.cfg.n - 1 := by omega
    refine ⟨BitVec.ofNat 32 (x :: rest).length, .value x, (collectTurns_of_returned hnext rfl 0).trans ?_⟩
    simp [collectTurns, afterWord, afterCollect, hq, putCells, if_pos hlast]
  | succ k ih =>
    obtain ⟨x, rest, hq⟩ := List.exists_cons_of_length_pos (Nat.zero_lt_of_lt hk)
    have hnext := nextWordTurns_of_queue hp hw hf ha (by omega) hq hl
    have hlast : s.idx ≠ s.cfg.n - 1 := by omega
    rw [hq, List.length_cons] at hk hl
    have hidx : (afterWord w s x rest).idx = s.idx + 1 := if_neg hlast
    obtain ⟨occ, a, hcollect⟩ := ih (s := afterWord w s x rest) (if_neg hlast) hw hf ha
      (by rw [hidx, Nat.add_assoc, Nat.add_comm 1]; exact hn) (Nat.le_of_succ_le_succ hk) (Nat.lt_of_succ_lt hl)
    refine ⟨occ, a, ((collectTurns_of_returned hnext rfl (k + 1)).trans hcollect).trans ?_⟩
    simp [afterWord, afterCollect, hq, putCells, if_neg hlast]

/-- R184: from `IDX` 0 these are the first `N` words of the queue. -/
theorem collectTurns_of_frame_queued {w : Window} {s : State} (hp : s.ph = .poll) (hi : s.idx = 0) (hw : s.win = some w)
    (hf : s.source = .fifo) (ha : s.agenda = []) (hn : 1 ≤ s.cfg.n) (hq : s.cfg.n ≤ s.q.length)
    (hl : s.q.length < 2 ^ 32) :
    ∃ occ a, collectTurns (s.cfg.n - s.idx) s = .next (afterCollect w s s.cfg.n occ a) := by
  obtain ⟨k, hk⟩ := Nat.exists_eq_add_of_le' hn
  rw [hi, Nat.sub_zero, hk]
  exact collectTurns_of_queue hp hw hf ha (by omega) (by omega) hl

section Cells
variable {α : Type} (m : List (Nat × α)) {vs : List α} {j : Nat}

/-- A run of writes from index 0, read back. -/
theorem cellAt_putCells_zero (hj : j < vs.length) : cellAt (putCells m 0 vs) j = vs[j]? := by
  simpa using cellAt_putCells_inside m 0 hj

/-- Beyond a run of writes from index 0 nothing is written. -/
theorem cellAt_putCells_zero_beyond (hj : vs.length ≤ j) : cellAt (putCells m 0 vs) j = cellAt m j :=
  cellAt_putCells_outside m (.inr (by rwa [Nat.zero_add]))

end Cells

/-- R126: `WBUF` holds the first `N` words of the queue in order, and beyond them what it held. -/
theorem cellAt_afterCollect {s : State} (hi : s.idx = 0) (hq : s.cfg.n ≤ s.q.length) (w : Window) (occ : Word)
    (a : Answer) :
    (∀ j, j < s.cfg.n → cellAt (afterCollect w s s.cfg.n occ a).wbuf j = s.q[j]?) ∧
      ∀ j, s.cfg.n ≤ j → cellAt (afterCollect w s s.cfg.n occ a).wbuf j = cellAt s.wbuf j := by
  have hlen : (s.q.take s.cfg.n).length = s.cfg.n := List.length_take_of_le hq
  rw [afterCollect, hi]
  refine ⟨fun j hj => ?_, fun j hj => cellAt_putCells_zero_beyond _ (hlen.trans_le hj)⟩
  rw [cellAt_putCells_zero _ (hj.trans_eq hlen.symm), List.getElem?_take_of_lt hj]

/-- Settles O47: the first `N` words of the queue are one run of writes to `WBUF`, from index 0. -/
theorem collectTakesTheNextWords : Obligations.CollectTakesTheNextWords := by
  intro w s hp hi hw hf ha hn hq hl
  obtain ⟨occ, a, hcollect⟩ := collectTurns_of_frame_queued hp hi hw hf ha hn hq hl
  obtain ⟨hwords, hothers⟩ := cellAt_afterCollect hi hq w occ a
  refine ⟨_, (inPhase_of_eq hp _).trans hcollect, hwords, hothers, ?_⟩
  simp [afterCollect, hi, collectEvents]

/-! ### CYCLE -/

/-- R146: from a full word buffer phase `PACK` builds the frame. -/
theorem leavePhase_pack {s : State} {ws : List Word} (hwords : s.words = ws ∧ s.wordsHeld = true) (hp : s.ph = .pack)
    (ha : s.agenda = []) :
    leavePhase .pack s = .next { s with fb := putCells s.fb 0 (frameOf s.seq ws), ph := .send } := by
  have hstep : seqTurn s = execBuildFrame s := by rw [seqTurn, hp]
  rw [← hp, leavePhase_of_step ha (hstep.trans (execBuildFrame_eq hp)) (by simp [hp])]
  simp [hwords]

/-- R162: with a legal answer listed for a frame that fits, phase `SEND` hands over the frame once. -/
theorem leavePhase_send {s : State} {d : Dest} {f : List Byte} {a : SinkAnswer} {rest : List SinkAnswer}
    (hframe : s.frame = f ∧ s.frameHeld = true) (hp : s.ph = .send) (ha : s.agenda = []) (hd : s.txh = some d)
    (hs : s.sink = a :: rest) (hlegal : ∀ k, a = .short k → k < frameLen s.cfg)
    (hfits : frameLen s.cfg ≤ s.cfg.maxMsg) :
    leavePhase .send s = .next { s with
      ph := .adv, sink := rest, draws := s.draws + 1
      trace := s.trace ++ (if a = .ok then [.send d f a] else [.send d f a, .reportTransient]) } := by
  obtain ⟨a', rest', n, hsend, -, -, hlisted, rfl⟩ := execSend_spec s d hp hd
  obtain ⟨rfl, hanswer⟩ := hlisted a rest hs
  obtain rfl := hanswer hlegal hfits
  have hstep : seqTurn s = execSend s := by rw [seqTurn, hp]
  rw [← hp, leavePhase_of_step ha (hstep.trans hsend) (by simp [hp])]
  simp [hframe]

/-- R188: phase `ADV` counts the cycle. -/
theorem leavePhase_adv {s : State} (hp : s.ph = .adv) (ha : s.agenda = []) :
    leavePhase .adv s = .next { s with seq := s.seq + 1, ph := .poll } := by
  have hstep : seqTurn s = execAdv s := by rw [seqTurn, hp]
  rw [← hp, leavePhase_of_step ha (hstep.trans (execAdv_eq hp)) (by simp [hp])]

/-- The three phases after COLLECT, in their order: the frame of the words collected is built, sent and counted. -/
theorem leavePhases_of_building {s : State} {d : Dest} {ws : List Word} {a : SinkAnswer} {rest : List SinkAnswer}
    (hwords : s.words = ws ∧ s.wordsHeld = true) (hp : s.ph = .pack) (ha : s.agenda = []) (hd : s.txh = some d)
    (hs : s.sink = a :: rest) (hlegal : ∀ k, a = .short k → k < frameLen s.cfg)
    (hfits : frameLen s.cfg ≤ s.cfg.maxMsg) :
    andThen (leavePhase .pack s) (fun s2 => andThen (leavePhase .send s2) (leavePhase .adv)) = .next { s with
      seq := s.seq + 1, ph := .poll, fb := putCells s.fb 0 (frameOf s.seq ws), sink := rest, draws := s.draws + 1
      trace := s.trace ++ (if a = .ok then [.send d (frameOf s.seq ws) a]
        else [.send d (frameOf s.seq ws) a, .reportTransient]) } := by
  have hlen : (frameOf s.seq ws).length = frameLen s.cfg := by rw [← hwords.1, length_frameOf_words]
  have hframe := frame_of_cells (s := { s with fb := putCells s.fb 0 (frameOf s.seq ws), ph := .send }) hlen
    (fun j hj => cellAt_putCells_zero s.fb (hj.trans_eq hlen.symm))
  rw [leavePhase_pack hwords hp ha, andThen_next, leavePhase_send hframe rfl ha hd hs hlegal hfits, andThen_next]
  exact leavePhase_adv rfl ha

/-- Settles O48: COLLECT fills `WBUF` with the words that PACK reads, and PACK fills `FB` with the frame that SEND
reads, so that neither reads an unwritten entry. -/
theorem cycleSendsOneFrame : Obligations.CycleSendsOneFrame := by
  intro w d s a rest hp hi hw hd hf ha hn hq hl hs hlegal hfits
  obtain ⟨occ, ans, hcollect⟩ := collectTurns_of_frame_queued hp hi hw hf ha hn hq hl
  obtain ⟨hwords, hothers⟩ := cellAt_afterCollect hi hq w occ ans
  have hlen : (s.q.take s.cfg.n).length = s.cfg.n := List.length_take_of_le hq
  have hframe : (frameOf s.seq (s.q.take s.cfg.n)).length = frameLen s.cfg := by rw [length_frameOf, hlen, frameLen]
  have hread := words_of_cells (s := afterCollect w s s.cfg.n occ ans) hlen
    (fun j hj => (hwords j hj).trans (List.getElem?_take_of_lt hj).symm)
  have hcycle : exec .cycle s = _ := (inPhase_of_eq hp _).trans
    ((congrArg (andThen · _) hcollect).trans (leavePhases_of_building hread rfl ha hd hs hlegal hfits))
  refine ⟨_, hcycle, hwords, hothers, fun j hj => ?_, fun j hj => ?_, ?_⟩
  · exact cellAt_putCells_zero _ (hj.trans_eq hframe.symm)
  · exact cellAt_putCells_zero_beyond _ (hframe.trans_le hj)
  · simp [afterCollect, hi, hp, collectEvents]

end Sys2Proof.Machine
end

section
/-!
PROOFS. The one consumer of the FIFO (60_exceptions.md R228, 70_reset_and_hazards.md R254, 45_acquisition_loop.md R196):
of the turns a step can take, the POP of the sequencer alone reads DATA.
-/
namespace Sys2Proof.Machine

/-- R196: the sequencer's operation of any phase but `POP` reads nothing through DATA; POLL reads OCC, which is another
register. -/
theorem popped_of_phaseInstr {i : Instr} {s t : State} (hne : s.cfg.occOff ≠ s.cfg.dataOff)
    (hi : phaseInstr s.ph = some i) (hpop : s.ph ≠ .pop) (h : exec i s = .next t) : popped t = popped s := by
  cases hp : s.ph <;> rw [hp] at hi <;> cases hi
  case init =>
    obtain ⟨-, ⟨-, _, -, rfl⟩ | ⟨-, _, _, _, rfl, -, hevs⟩⟩ := execInit_next h
    · simp [popped, readsOf]
    · simp [popped, (traceOf_quiet s.cfg.dataOff hevs).1]
  case poll =>
    obtain ⟨-, _, _, _, _, -, rfl, -⟩ := execPoll_next h
    simp [popped, readsOf_rd_other hne]
  case pop => exact absurd hp hpop
  case pack => obtain ⟨-, rfl⟩ := execBuildFrame_next h; rfl
  case send =>
    obtain ⟨-, _, _, _, _, -, rfl⟩ := execSend_next h
    simp [popped, (traceOf_send _ _ _ _).1]
  case adv => obtain ⟨-, rfl⟩ := execAdv_next h; rfl

/-- Settles O10: a push, a KILL and a read outside the window pop nothing, and of the sequencer's operations only POP
does, one word. -/
theorem onlyTheSequencerPops : Obligations.OnlyTheSequencerPops := by
  intro s t hne h
  rw [step_eq_turn] at h
  obtain ⟨i, rest, he, ⟨hi, ha⟩ | ⟨_, rfl, -⟩ | ⟨rfl, -⟩ | ⟨_, _, rfl, -⟩⟩ := turn_next h
  · by_cases hp : s.ph = .pop
    · rw [hp] at hi
      cases hi
      obtain ⟨-, -, _, v, _, _, _, _, -, rfl, -⟩ := execPop_next he
      exact .inr ⟨hp, ha.imp (fun ⟨ha, _⟩ => by simp [ha]) (fun ha => by simp [ha]), v, by simp [popped]⟩
    · exact .inl (popped_of_phaseInstr (s := { s with agenda := rest }) hne hi hp he)
  · obtain ⟨_, _, _, rfl, -⟩ := execPush_next he
    exact .inl (by simp [popped])
  · obtain ⟨-, rfl⟩ := execKill_next he
    exact .inl (by simp [popped, readsOf])
  · obtain ⟨_, -, -, rfl⟩ := execRdOob_next he
    exact .inl rfl

end Sys2Proof.Machine
end
